-- ==== Sys2Proof/Word.lean ====
section
/-! DEFINITION. The word types of the block (spec/00_scope.md R7, R9, R23): Byte, Word, Block, the key
registers and the schedule store. Everything the block computes over them stands in Sys2Proof/Machine/. -/

namespace Sys2Proof

/-- R9: "A Byte is an 8-bit unsigned value"; bit i is the coefficient of x^i. -/
abbrev Byte := BitVec 8

/-- R9: "A Word is a 32-bit unsigned value", bit 31 the most significant. -/
abbrev Word := BitVec 32

/-- The four bytes of a Word, byte 0 the most significant (R10). -/
abbrev Bytes4 := Vector Byte 4

/-- R7: the 4-word working block; column j is word j. (The spec calls it State; that name is the machine's here.) -/
abbrev Block := Vector Word 4

/-- R23: the eight key registers. -/
abbrev KeyRegs := Vector Word 8

/-- R31: one schedule store of 60 Words, round-major: round key r, column c at index 4*r + c. -/
abbrev Store := Vector Word 60

end Sys2Proof
end

