-- ==== Sys2Proof/Config.lean ====
section
/-! DEFINITION. What an implementation or a platform fixes and the spec leaves open (spec/92_eei_decisions.md,
"Open parameters"; spec/93_implementation_defined.md items 7 to 10), and the model's two free values.
No constant here has a body: a proof can see no value of it. -/

namespace Sys2Proof

/-- FREE VALUE (93 item 8, R225, R226): how many host steps fall between the n-th accepted issue and its
completion. Every number is admitted and every number is finite, which is weak fairness (log entry 1). -/
opaque Config.completionDelay : Nat → Nat

/-- FREE VALUE: what a BNZ of the host program reads from a name that no RD has bound; the spec's host syntax
(R79) states no such value (log entry 3). -/
opaque Config.unboundName : Nat → Word

/-- OPEN PARAMETER `BUS_PROTOCOL` (D1): the bus below whole-word transactions. No rule of the model reads it. -/
opaque Config.BusProtocol : Type

/-- The 4 KiB page at which the platform puts the register window; see `Config.baseAddress`. -/
opaque Config.basePage : Nat

/-- OPEN PARAMETER `BASE_ADDRESS` (D3, R54): "natural, 4096-aligned". Rules use window offsets only. -/
def Config.baseAddress : Nat := 4096 * Config.basePage

/-- Where the window's byte offset `off` stands in the system's address map (R54, R211). -/
def Config.windowAddress (off : Nat) : Nat := Config.baseAddress + off

/-- One less than `LATENCY`, so that the latency is positive; see `Config.latency`. -/
opaque Config.latencyPred : BitVec 4 → Nat → Nat

/-- OPEN PARAMETER `LATENCY(op, NR)` (D15, R230): clock cycles from an accepted issue to its completion,
"a finite positive natural number for each argument pair". The model has no clock and no step reads it. -/
def Config.latency (op : BitVec 4) (nr : Nat) : Nat := Config.latencyPred op nr + 1

end Sys2Proof
end

