-- ==== Sys2Proof/Machine/State.lean ====
section
/-! DEFINITION. The state of the machine: the block's record of spec/10_state.md R21, field for field, and beside it
the host agent (R20, R79) and the two fields by which the model admits every completion point (R225, R226).
Then the reasons a step can stop, and the state right after reset (R220). -/

namespace Sys2Proof.Machine

/-- R200: what `STATUS.ERR` can hold. Codes 5 to 15 are "never produced", so no constructor stands for them. -/
inductive ErrCode where
  | none
  | invalidKeySize
  | invalidBlockSize
  | illegalCommand
  | noSchedule
deriving DecidableEq, Repr

/-- R28: the fields of STATUS. Bits 3 and 31:8 are hardwired to 0 and are no state. -/
structure Status where
  busy   : Bool
  kvalid : Bool
  ovr    : Bool
  err    : ErrCode
deriving DecidableEq, Repr

/-- R29: the fields of KINFO. Bits 7:4 and 31:12 are hardwired to 0 and are no state. -/
structure KInfo where
  nk : BitVec 4
  nr : BitVec 4
deriving DecidableEq, Repr

/-- R32: an accepted command that has not completed: its fields and the copies of KEY and DIN taken at issue. -/
structure Pending where
  op   : BitVec 4
  tsel : BitVec 4
  arg  : Byte
  keyl : KeyRegs
  dinl : Block
deriving DecidableEq, Repr

/-- R79: one step of the host agent, its labels resolved to positions in the host's program. -/
inductive HostStmt where
  /-- `RD`: `name <- MemRead(off, n)` (R52). -/
  | read (off n : Nat) (name : Nat)
  /-- `WR`: `MemWrite(off, n, v)` (R53). -/
  | write (off n : Nat) (v : Word)
  /-- `BNZ name, mask, label`: a branch of the host, not of the block. -/
  | bnz (name : Nat) (mask : Word) (target : Nat)
  /-- `RESET`: the environment asserts the block's reset input (R220). -/
  | reset
deriving DecidableEq, Repr

/-- Why the machine stops. -/
inductive Fault where
  /-- The core's step, when PEND's fields name no command (R75) or an EXPK of a length other than 4, 6 or 8 (R183).
  Safe: no run reaches such a state (the invariant of Sys2Proof/Safety.lean rules it out), and R186 gives it no effect. -/
  | pendingIllegal
  /-- The core's step, when ENC or DEC completes while KINFO.NR is not 10, 12 or 14 (R161). Safe: as above. -/
  | scheduleIllegal
deriving DecidableEq, Repr

/-- Why a step has no meaning. -/
inductive Refusal where
  /-- An arm of exec whose instruction has no meaning yet; no arm is so now. Safe. -/
  | notModelled (mnemonic : String)
  /-- R51, R207: the host's transaction is not one aligned 32-bit Word inside the window. Raised by the host's
  read and write. Safe: "the run has no meaning, which errs toward unprovable". -/
  | badAccess (off n : Nat)
deriving DecidableEq, Repr

/-- The state. The first nine fields are the block's own record, R21; the last five are the model's: the host agent's
program, position and observations, and the completion schedule. -/
structure State where
  /-- KEY[0..7] (R23). -/
  key    : KeyRegs
  /-- DIN[0..3] (R24). -/
  din    : Block
  /-- DOUT[0..3] (R25). -/
  dout   : Block
  /-- TOUT (R26). -/
  tout   : Word
  /-- ESCHED[0..59] (R31). -/
  esched : Store
  /-- DSCHED[0..59] (R31). -/
  dsched : Store
  /-- STATUS (R28). -/
  status : Status
  /-- KINFO (R29). -/
  kinfo  : KInfo
  /-- PEND (R32), hidden. -/
  pend   : Option Pending
  /-- The host's program (R79): its transactions, in order. -/
  prog   : List HostStmt
  /-- The host's position in it: the index of its next step. -/
  hpc    : Nat
  /-- The names the host's reads bound and the values they returned (R231), newest first. -/
  reads  : List (Nat × Word)
  /-- How many more host steps fall before the pending command completes (R225); read only while PEND holds one. -/
  wait   : Nat
  /-- How many commands have been accepted: the counter to which Config.completionDelay is applied. -/
  issues : Nat
deriving DecidableEq, Repr

/-- R220: the machine right after reset. The host has no program; one is placed from outside (log entry 4). -/
def State.reset : State where
  key    := Vector.replicate 8 0
  din    := Vector.replicate 4 0
  dout   := Vector.replicate 4 0
  tout   := 0
  esched := Vector.replicate 60 0
  dsched := Vector.replicate 60 0
  status := { busy := false, kvalid := false, ovr := false, err := .none }
  kinfo  := { nk := 0, nr := 0 }
  pend   := none
  prog   := []
  hpc    := 0
  reads  := []
  wait   := 0
  issues := 0

end Sys2Proof.Machine
end

