-- ==== Sys2Proof/Machine/Flags.lean ====
section
/-! DEFINITION. The flags (spec/10_state.md R28, R29, R34): how each event writes them, and the words that STATUS and
KINFO read as (spec/20_memory.md R52). -/

namespace Sys2Proof.Machine

/-- R200: the code that ERR shows. -/
def errCode : ErrCode → BitVec 4
  | .none => 0
  | .invalidKeySize => 1
  | .invalidBlockSize => 2
  | .illegalCommand => 3
  | .noSchedule => 4

/-- One flag as a Word. -/
def flagBit (b : Bool) : Word := if b then 1 else 0

/-- R52: `zext_32(ERR << 4 | OVR << 2 | KVALID << 1 | BUSY)`. -/
def statusWord (st : Status) : Word :=
  ((errCode st.err).setWidth 32 <<< 4) ||| (flagBit st.ovr <<< 2) ||| (flagBit st.kvalid <<< 1) ||| flagBit st.busy

/-- R52: `zext_32(NR << 8 | NK)`. -/
def kinfoWord (k : KInfo) : Word := (k.nr.setWidth 32 <<< 8) ||| k.nk.setWidth 32

/-- R34, first row: a CMD write while BUSY = 1. -/
def flagsOverrun (st : Status) : Status := { st with ovr := true }

/-- R34, second row: a CMD write while BUSY = 0, rejected with the code `e`. -/
def flagsRejected (e : ErrCode) (st : Status) : Status := { st with ovr := false, err := e }

/-- R34, third row: a CMD write while BUSY = 0, accepted. -/
def flagsAccepted (st : Status) : Status := { st with busy := true, ovr := false, err := .none }

/-- R34, fourth row: completion of TBL, ENC or DEC. -/
def flagsCompleted (st : Status) : Status := { st with busy := false }

/-- R34, fifth row: completion of EXPK. -/
def flagsExpanded (st : Status) : Status := { st with busy := false, kvalid := true }

end Sys2Proof.Machine
end

