-- ==== Sys2Proof/Syntax.lean ====
section
/-! DEFINITION. The command set (spec/30_encoding.md R71, spec/45_commands.md R188): one constructor for each row
of spec/opcode_table.json, its operands as the fields of the command word CMDW (R70) give them. -/

namespace Sys2Proof

/-- R188: "The command set is exactly TBL, EXPK, ENC and DEC". -/
inductive Instr where
  /-- `TBL tsel, tidx` (R182): TSEL selects one of the ten ROM tables, TIDX = ARG is the index into it. -/
  | tbl (tsel : BitVec 4) (tidx : Byte)
  /-- `EXPK len` (R183): LEN = ARG is the number of key words the host declares it has placed in KEY. -/
  | expk (len : Byte)
  /-- `ENC len` (R184): LEN = ARG is the number of block words the host declares it has placed in DIN. -/
  | enc (len : Byte)
  /-- `DEC len` (R185): LEN as for ENC. -/
  | dec (len : Byte)
deriving DecidableEq, Repr

end Sys2Proof
end

