-- ==== Sys2Proof/WellFormed.lean ====
section
/-! DEFINITION. Which terms of Instr a command word can encode (spec/30_encoding.md R72, R73, R75). -/

namespace Sys2Proof

/-- R72: TSEL 0x0 to 0x9 select a table and 0xA to 0xF are illegal. R73: every ARG from 0 to 255 is a well-formed
encoding; a length out of range "is not an illegal encoding" (R76) and is refused later, by validation. -/
def Instr.wellFormed : Instr → Bool
  | .tbl tsel _ => decide (tsel ≤ 9)
  | .expk _ => true
  | .enc _ => true
  | .dec _ => true

end Sys2Proof
end

