-- ==== Sys2Proof/Decode.lean ====
section
/-! DEFINITION. The decoder of a command word, total on every Word and rejecting by name (spec/30_encoding.md R70
to R77), and after it the encoder, written from the same format (R70, R71, R78). -/

namespace Sys2Proof

/-- R76: why a word is no command. All four have one effect, IllegalCommand (`STATUS.ERR = 3`). -/
inductive Illegal where
  /-- Some bit of RSVD (31:16) is set (R74). -/
  | reservedBits
  /-- OP = 0x0 or OP in 0x5 to 0xF (R71). -/
  | opcode
  /-- OP = 0x1 with TSEL in 0xA to 0xF (R72). -/
  | tableSelect
  /-- OP in 0x2 to 0x4 with TSEL other than 0 (R72). -/
  | tselNotZero
deriving DecidableEq, Repr

/-- R70: OP, bits 3:0. -/
def cmdOp (w : Word) : BitVec 4 := w.extractLsb' 0 4
/-- R70: TSEL, bits 7:4. -/
def cmdTsel (w : Word) : BitVec 4 := w.extractLsb' 4 4
/-- R70, R73: ARG, bits 15:8, used unchanged. -/
def cmdArg (w : Word) : Byte := w.extractLsb' 8 8
/-- R70, R74: RSVD, bits 31:16. -/
def cmdRsvd (w : Word) : BitVec 16 := w.extractLsb' 16 16

/-- The part of R75 after the RSVD check: the command that the fields OP, TSEL and ARG name. The core reads the
fields latched in PEND through it too (R186). -/
def decodeFields (op tsel : BitVec 4) (arg : Byte) : Except Illegal Instr :=
  if op = 0x1 then (if tsel ≤ 9 then .ok (.tbl tsel arg) else .error .tableSelect)
  else if op = 0x2 then (if tsel = 0 then .ok (.expk arg) else .error .tselNotZero)
  else if op = 0x3 then (if tsel = 0 then .ok (.enc arg) else .error .tselNotZero)
  else if op = 0x4 then (if tsel = 0 then .ok (.dec arg) else .error .tselNotZero)
  else .error .opcode

/-- R75: the decoder, total on every 32-bit word. -/
def decode (w : Word) : Except Illegal Instr :=
  if cmdRsvd w ≠ 0 then .error .reservedBits
  else decodeFields (cmdOp w) (cmdTsel w) (cmdArg w)

/-- R71: the OP value of a command. -/
def Instr.op : Instr → BitVec 4
  | .tbl _ _ => 0x1
  | .expk _ => 0x2
  | .enc _ => 0x3
  | .dec _ => 0x4

/-- R70: TSEL, which "must be 0 for every other OP" than TBL. -/
def Instr.tsel : Instr → BitVec 4
  | .tbl tsel _ => tsel
  | .expk _ => 0
  | .enc _ => 0
  | .dec _ => 0

/-- R73: ARG, the table index or the length. -/
def Instr.arg : Instr → Byte
  | .tbl _ tidx => tidx
  | .expk len => len
  | .enc len => len
  | .dec len => len

/-- R78: "Each assembles to the word `(arg << 8) | (tsel << 4) | op`". -/
def encode (i : Instr) : Word :=
  (i.arg.setWidth 32 <<< 8) ||| (i.tsel.setWidth 32 <<< 4) ||| i.op.setWidth 32

/-- The command word whose bits are `w`, of which the table gives `nbits`; none where the bits do not fit in the one
32-bit word that every command is (R77). -/
def tableWord (nbits w : Nat) : Option Word :=
  if w % 2 ^ nbits < 2 ^ 32 then some (BitVec.ofNat 32 (w % 2 ^ nbits)) else none

/-- What the decoder reads from a row of spec/opcode_table.json filled in as the bits `w`. -/
def decodeTableWord (nbits w : Nat) : Option Instr :=
  match tableWord nbits w with
  | some v => (decode v).toOption
  | none => none

end Sys2Proof
end

