-- ==== Sys2Proof/Machine/Bytes.lean ====
section
/-! DEFINITION. Words as bytes and the rotations (spec/00_scope.md R10 to R12). Every byte order of the block is
decided here: big-endian within the Word (R10, R58). -/

namespace Sys2Proof.Machine

/-- R10: `byte(w, k) = w[31-8k : 24-8k]`, so byte 0 is the most significant. -/
def byteOf (w : Word) (k : Fin 4) : Byte := w.extractLsb' (24 - 8 * k.val) 8

/-- R10: `unpack(w) = [byte(w,0), byte(w,1), byte(w,2), byte(w,3)]`. -/
def unpack (w : Word) : Bytes4 := #v[byteOf w 0, byteOf w 1, byteOf w 2, byteOf w 3]

/-- R10: `pack([b0,b1,b2,b3]) = (b0 << 24) | (b1 << 16) | (b2 << 8) | b3`. -/
def pack (b : Bytes4) : Word :=
  (b[0].setWidth 32 <<< 24) ||| (b[1].setWidth 32 <<< 16) ||| (b[2].setWidth 32 <<< 8) ||| b[3].setWidth 32

/-- R11: `rotr8(y, k) = ((y >> k) | (y << (8-k)))[7:0]`, for k from 0 to 7. -/
def rotr8 (y : Byte) (k : Nat) : Byte := (y >>> k) ||| (y <<< (8 - k))

/-- R11: rotate a Word right by n bit positions. -/
def ror32 (w : Word) (n : Nat) : Word := w.rotateRight n

/-- R11: rotate a Word left by n bit positions. -/
def rol32 (w : Word) (n : Nat) : Word := w.rotateLeft n

/-- R12: n applications of `[a,b,c,d]` to `[d,a,b,c]`. -/
def rotlistRight : Nat → Bytes4 → Bytes4
  | 0, l => l
  | n + 1, l => rotlistRight n #v[l[3], l[0], l[1], l[2]]

/-- R12: `rotlist_left([a,b,c,d], 1) = [b,c,d,a]`, the only left rotation the spec uses. -/
def rotlistLeft1 (l : Bytes4) : Bytes4 := #v[l[1], l[2], l[3], l[0]]

end Sys2Proof.Machine
end

