-- ==== Sys2Proof/Machine/Gf.lean ====
section
/-! DEFINITION. The GF(2^8) arithmetic unit (spec/40_gf_arithmetic.md R100 to R107), modulo 0x11B (C1). -/

namespace Sys2Proof.Machine

/-- R100. -/
def gfAdd (x y : Byte) : Byte := x ^^^ y

/-- R101: double, and reduce by 0x1B if the bit shifted out was 1. -/
def xtime (a : Byte) : Byte := if a.getLsbD 7 then (a <<< 1) ^^^ 0x1B else a <<< 1

/-- The loop of R102, `n` rounds of it from the accumulator `acc`. -/
def gfMulLoop : Nat → Byte → Byte → Byte → Byte
  | 0, acc, _, _ => acc
  | n + 1, acc, a, b => gfMulLoop n (if b.getLsbD 0 then acc ^^^ a else acc) (xtime a) (b >>> 1)

/-- R102: `x · y`, the spec's double-and-conditionally-reduce loop of 8 rounds. -/
def gfMul (x y : Byte) : Byte := gfMulLoop 8 0 x y

/-- The loop of R103. The first argument bounds its rounds; `e` halves in each, so `e` rounds are enough. -/
def gfPowLoop : Nat → Byte → Byte → Nat → Byte
  | 0, r, _, _ => r
  | fuel + 1, r, b, e =>
    if e = 0 then r else gfPowLoop fuel (if e % 2 = 1 then gfMul r b else r) (gfMul b b) (e / 2)

/-- R103: exponentiation by repeated squaring, total in k (D26). -/
def gfPow (x : Byte) (k : Nat) : Byte := gfPowLoop k 1 x k

/-- R104: `gf_inv(x) = gf_pow(x, 254)`; zero is not special-cased. -/
def gfInv (x : Byte) : Byte := gfPow x 254

end Sys2Proof.Machine
end

