-- ==== Sys2Proof/Machine/Sbox.lean ====
section
/-! DEFINITION. The two Byte ROMs (spec/41_sbox.md R120, R121), as functions of the index: constants of the design,
not state (spec/10_state.md R30). -/

namespace Sys2Proof.Machine

/-- R120: the forward affine map, with the rotation amounts 4, 5, 6, 7 of C2. -/
def affine (y : Byte) : Byte := y ^^^ rotr8 y 4 ^^^ rotr8 y 5 ^^^ rotr8 y 6 ^^^ rotr8 y 7 ^^^ 0x63

/-- R120: `SBOX[b] = affine(gf_inv(b))`. -/
def sbox (b : Byte) : Byte := affine (gfInv b)

/-- R121: the inverse affine map. -/
def invAffine (y : Byte) : Byte := rotr8 y 2 ^^^ rotr8 y 5 ^^^ rotr8 y 7 ^^^ 0x05

/-- R121: `INV_SBOX[b] = gf_inv(inv_affine(b))`. -/
def invSbox (b : Byte) : Byte := gfInv (invAffine b)

end Sys2Proof.Machine
end

