-- ==== Sys2Proof/Machine/KeySchedule.lean ====
section
/-! DEFINITION. The key scheduler (spec/42_key_schedule.md R130 to R139). -/

namespace Sys2Proof.Machine

/-- R130: `rc(i) = gf_pow(0x02, i - 1)` for i ≥ 1. rc(0) is never read (93 item 4). -/
def rc (i : Nat) : Byte := gfPow 2 (i - 1)

/-- R131. -/
def rotWord (w : Word) : Word := pack (rotlistLeft1 (unpack w))

/-- R132: the S-box on each byte. -/
def subWord (w : Word) : Word := pack ((unpack w).map sbox)

/-- R133, one word of the loop: W[i] for i ≥ Nk, from `w` = W[0..i-1]. -/
def nextWord (nk i : Nat) (w : List Word) : Word :=
  if i % nk = 0 then w.getD (i - nk) 0 ^^^ subWord (rotWord (w.getD (i - 1) 0)) ^^^ ((rc (i / nk)).setWidth 32 <<< 24)
  else if i % nk = 4 ∧ nk > 6 then w.getD (i - nk) 0 ^^^ subWord (w.getD (i - 1) 0)
  else w.getD (i - nk) 0 ^^^ w.getD (i - 1) 0

/-- R133, the loop: `n` more words after `w`. -/
def extendWords (nk : Nat) : Nat → List Word → List Word
  | 0, w => w
  | n + 1, w => extendWords nk n (w ++ [nextWord nk w.length w])

/-- R6: `Nw = 4*(Nr+1)` with `Nr = Nk + 6`. -/
def nwOf (nk : Nat) : Nat := 4 * (nk + 6 + 1)

/-- R133: `expandWords(key) -> W[0..Nw-1]`, Nk the key's length. -/
def expandWords (key : List Word) : List Word :=
  extendWords key.length (nwOf key.length - key.length) key

/-- R134: `roundKey[r] = [W[4r], W[4r+1], W[4r+2], W[4r+3]]`. -/
def roundKey (w : List Word) (r : Nat) : Block :=
  #v[w.getD (4 * r) 0, w.getD (4 * r + 1) 0, w.getD (4 * r + 2) 0, w.getD (4 * r + 3) 0]

/-- R136: the inverse diffusion matrix M. -/
def invMatrix : Vector Bytes4 4 :=
  #v[#v[0xE, 0xB, 0xD, 0x9], #v[0x9, 0xE, 0xB, 0xD], #v[0xD, 0x9, 0xE, 0xB], #v[0xB, 0xD, 0x9, 0xE]]

/-- R136, one row of M times one column. -/
def matrixRow (m a : Bytes4) : Byte :=
  gfMul m[0] a[0] ^^^ gfMul m[1] a[1] ^^^ gfMul m[2] a[2] ^^^ gfMul m[3] a[3]

/-- R136, one column. -/
def invMixColumn (w : Word) : Word := pack (invMatrix.map fun m => matrixRow m (unpack w))

/-- R136: each of the four columns on its own. -/
def invMixColumns (s : Block) : Block := s.map invMixColumn

/-- The source's RoundKeySchedule triple (R14, R31). -/
structure Schedule where
  initial : Block
  middle  : List Block
  final   : Block
deriving DecidableEq, Repr

/-- R135: the encryption schedule of the words `w` for `nr` rounds: middle[m] = roundKey[m+1], m = 0 .. Nr-2. -/
def encSched (nr : Nat) (w : List Word) : Schedule where
  initial := roundKey w 0
  middle  := (List.range (nr - 1)).map fun m => roundKey w (m + 1)
  final   := roundKey w nr

/-- R137: the decryption schedule, its middle keys from round Nr-1 down to round 1 (C3). -/
def decSched (nr : Nat) (w : List Word) : Schedule where
  initial := roundKey w nr
  middle  := (List.range (nr - 1)).map fun m => invMixColumns (roundKey w (nr - 1 - m))
  final   := roundKey w 0

/-- R138: the words of a schedule in the order of the store. -/
def Schedule.words (sch : Schedule) : List Word :=
  (sch.initial :: (sch.middle ++ [sch.final])).flatMap Vector.toList

/-- R138: `flatten(S)`; the words past `4*(Nr+1)` are 0 (D30). -/
def Schedule.flatten (sch : Schedule) : Store := Vector.ofFn fun i => sch.words.getD i.val 0

/-- R73, R139: the key lengths that are legal. -/
def keyLenLegal (n : Nat) : Bool := n == 4 || n == 6 || n == 8

/-- R139: `expand_key(key)`; the length check comes first. -/
def expandKey (key : List Word) : Except ErrCode (Schedule × Schedule) :=
  if keyLenLegal key.length then
    .ok (encSched (key.length + 6) (expandWords key), decSched (key.length + 6) (expandWords key))
  else .error .invalidKeySize

end Sys2Proof.Machine
end

