-- ==== Sys2Proof/Machine/Tbox.lean ====
section
/-! DEFINITION. The eight Word ROMs (spec/43_tbox.md R150 to R153), as functions of the index. -/

namespace Sys2Proof.Machine

/-- R150: `t0Func(b) = [2·s, s, s, 3·s]` with `s = SBOX[b]`. -/
def t0Func (b : Byte) : Bytes4 := #v[gfMul 2 (sbox b), sbox b, sbox b, gfMul 3 (sbox b)]

/-- R152: `u0Func(b) = [0xE·u, 0x9·u, 0xD·u, 0xB·u]` with `u = INV_SBOX[b]`. -/
def u0Func (b : Byte) : Bytes4 :=
  #v[gfMul 0xE (invSbox b), gfMul 0x9 (invSbox b), gfMul 0xD (invSbox b), gfMul 0xB (invSbox b)]

/-- R150, R151: `Tn[b]`, n from 0 to 3: the bytes of t0Func rotated right by n positions, packed. -/
def tbox (n : Nat) (b : Byte) : Word := pack (rotlistRight n (t0Func b))

/-- R152, R153: `Un[b]`, n from 0 to 3. -/
def ubox (n : Nat) (b : Byte) : Word := pack (rotlistRight n (u0Func b))

end Sys2Proof.Machine
end

