-- ==== Sys2Proof/Machine/Operands.lean ====
section
/-! DEFINITION. Every operand form: the table that TSEL selects (spec/30_encoding.md R72), the lengths (R73), and the
register map through which a host transaction names a register (spec/20_memory.md R51, R54). -/

namespace Sys2Proof.Machine

/-- R30, R72: the ten ROM tables. -/
inductive Table where
  | sbox
  | invSbox
  | t0
  | t1
  | t2
  | t3
  | u0
  | u1
  | u2
  | u3
deriving DecidableEq, Repr

/-- R72: the table that a TSEL value selects; 0xA to 0xF select none. -/
def tableOfTsel (tsel : BitVec 4) : Option Table :=
  match tsel.toNat with
  | 0 => some .sbox
  | 1 => some .invSbox
  | 2 => some .t0
  | 3 => some .t1
  | 4 => some .t2
  | 5 => some .t3
  | 6 => some .u0
  | 7 => some .u1
  | 8 => some .u2
  | 9 => some .u3
  | _ => none

/-- R72: the TSEL value of a table, as the assembler writes it (R78). -/
def tselOfTable : Table → BitVec 4
  | .sbox => 0
  | .invSbox => 1
  | .t0 => 2
  | .t1 => 3
  | .t2 => 4
  | .t3 => 5
  | .u0 => 6
  | .u1 => 7
  | .u2 => 8
  | .u3 => 9

/-- R72, R182: the TOUT value of a table entry; a Byte entry is zero-extended. -/
def tableEntry : Table → Byte → Word
  | .sbox, b => (sbox b).setWidth 32
  | .invSbox, b => (invSbox b).setWidth 32
  | .t0, b => tbox 0 b
  | .t1, b => tbox 1 b
  | .t2, b => tbox 2 b
  | .t3, b => tbox 3 b
  | .u0, b => ubox 0 b
  | .u1, b => ubox 1 b
  | .u2, b => ubox 2 b
  | .u3, b => ubox 3 b

/-- R73: the block length that is legal. -/
def blockLenLegal (len : Byte) : Bool := len == 4

/-- R161: the round counts of a schedule held. -/
def roundsLegal (nr : BitVec 4) : Bool := nr == 10 || nr == 12 || nr == 14

/-- R54: the registers of the window, and the reserved offsets. -/
inductive Reg where
  | cmd
  | status
  | kinfo
  | tout
  | key (i : Fin 8)
  | din (i : Fin 4)
  | dout (i : Fin 4)
  | esched (i : Fin 60)
  | dsched (i : Fin 60)
  | reserved
deriving DecidableEq, Repr

/-- R54: what stands at a byte offset of the window. -/
def regAt (off : Nat) : Reg :=
  if off = 0x000 then .cmd
  else if off = 0x004 then .status
  else if off = 0x008 then .kinfo
  else if off = 0x00C then .tout
  else if h : 0x010 ≤ off ∧ off ≤ 0x02C then .key ⟨(off - 0x010) / 4, by omega⟩
  else if h : 0x030 ≤ off ∧ off ≤ 0x03C then .din ⟨(off - 0x030) / 4, by omega⟩
  else if h : 0x040 ≤ off ∧ off ≤ 0x04C then .dout ⟨(off - 0x040) / 4, by omega⟩
  else if h : 0x100 ≤ off ∧ off ≤ 0x1EC then .esched ⟨(off - 0x100) / 4, by omega⟩
  else if h : 0x200 ≤ off ∧ off ≤ 0x2EC then .dsched ⟨(off - 0x200) / 4, by omega⟩
  else .reserved

/-- R54, R79: `offset(reg)`; none for the reserved offsets, which are no register. -/
def regOffset : Reg → Option Nat
  | .cmd => some 0x000
  | .status => some 0x004
  | .kinfo => some 0x008
  | .tout => some 0x00C
  | .key i => some (0x010 + 4 * i.val)
  | .din i => some (0x030 + 4 * i.val)
  | .dout i => some (0x040 + 4 * i.val)
  | .esched i => some (0x100 + 4 * i.val)
  | .dsched i => some (0x200 + 4 * i.val)
  | .reserved => none

/-- R51: the transactions the interface has: 4 bytes, at an aligned offset from 0 to 0xFFC. -/
def legalAccess (off n : Nat) : Bool := n == 4 && off % 4 == 0 && decide (off ≤ 0xFFC)

end Sys2Proof.Machine
end

