-- ==== Sys2Proof/Machine/Ops.lean ====
section
/-! DEFINITION. The operations that every meaning shares: whose step is next (spec/10_state.md R20), issue and its
errors (spec/45_commands.md R181), the end of a completion (R186), register reads and writes (spec/20_memory.md R52,
R53) and reset (spec/70_reset_and_hazards.md R220). -/

namespace Sys2Proof.Machine

/-- The outcome of a step of this machine. -/
abbrev Result := Host.Outcome State Fault Refusal

/-- `f` after a step that answers a next state. -/
def mapNext (f : State → State) : Result → Result
  | .next s => .next (f s)
  | .fault r => .fault r
  | .refused r => .refused r

/-- The host's next step, none when its program has no next one. -/
def State.nextStmt (s : State) : Option HostStmt := s.prog[s.hpc]?

/-- Whose step is next (R20, R60). The core's only step is the completion, enabled exactly when PEND holds a command
(R186). It is taken once `wait` host steps have passed since the issue, or as soon as the host has no step left. -/
def State.coreTurn (s : State) : Bool := s.pend.isSome && (s.wait == 0 || s.nextStmt.isNone)

/-- The pending command, when the core's step is next. -/
def State.completing (s : State) : Option Pending := if s.coreTurn then s.pend else none

/-- R181, R187: a CMD write while BUSY = 1 sets OVR and changes nothing else. -/
def overrun (s : State) : State := { s with status := flagsOverrun s.status }

/-- R13, R181, R202: `raise <Error>`. The block has no trap (R205): a raise writes ERR, on top of the `OVR <- 0` of
every CMD write made while idle, and changes nothing else. It needs no return (R206). -/
def raiseError (e : ErrCode) (s : State) : State := { s with status := flagsRejected e s.status }

/-- R181, the last branch: latch the command's fields with copies of KEY and DIN (R32) and set BUSY. The number of
host steps before the completion is the free value Config.completionDelay (R225). -/
def accept (i : Instr) (s : State) : State :=
  { s with
    status := flagsAccepted s.status
    pend := some { op := i.op, tsel := i.tsel, arg := i.arg, keyl := s.key, dinl := s.din }
    wait := Config.completionDelay s.issues
    issues := s.issues + 1 }

/-- R181: `CommandWrite`, for a word whose validation gives `verdict`. -/
def issue (verdict : Except ErrCode Instr) (s : State) : State :=
  if s.status.busy then overrun s
  else match verdict with
    | .error e => raiseError e s
    | .ok i => accept i s

/-- R181, R182: TBL fails validation only by a TSEL that selects no table. -/
def validateTbl (tsel : BitVec 4) (tidx : Byte) : Except ErrCode Instr :=
  if tsel ≤ 9 then .ok (.tbl tsel tidx) else .error .illegalCommand

/-- R181, R183: EXPK fails validation by a LEN other than 4, 6, 8. -/
def validateExpk (len : Byte) : Except ErrCode Instr :=
  if keyLenLegal len.toNat then .ok (.expk len) else .error .invalidKeySize

/-- R181, R184, R185, R203: ENC and DEC fail validation by a LEN other than 4, then by having no schedule. -/
def validateBlock (i : Instr) (len : Byte) (st : Status) : Except ErrCode Instr :=
  if blockLenLegal len then (if st.kvalid then .ok i else .error .noSchedule) else .error .invalidBlockSize

/-- R186: the end of a completion of TBL, ENC or DEC: `PEND <- none; STATUS.BUSY <- 0`. -/
def finish (s : State) : State := { s with status := flagsCompleted s.status, pend := none }

/-- R183, R186: what a completing EXPK writes beside the stores: KINFO, KVALID, PEND and BUSY. -/
def finishExpand (nk : Byte) (s : State) : State :=
  { s with
    kinfo := { nk := nk.setWidth 4, nr := nk.setWidth 4 + 6 }
    status := flagsExpanded s.status
    pend := none }

/-- R52: what a register reads as. -/
def readReg : Reg → State → Word
  | .cmd, _ => 0
  | .status, s => statusWord s.status
  | .kinfo, s => kinfoWord s.kinfo
  | .tout, s => s.tout
  | .key i, s => s.key.get i
  | .din i, s => s.din.get i
  | .dout i, s => s.dout.get i
  | .esched i, s => s.esched.get i
  | .dsched i, s => s.dsched.get i
  | .reserved, _ => 0

/-- R53, R55, R56: a write to a register other than CMD. KEY and DIN take it; the rest ignore it. -/
def writeReg (r : Reg) (v : Word) (s : State) : State :=
  match r with
  | .key i => { s with key := s.key.set i.val v }
  | .din i => { s with din := s.din.set i.val v }
  | _ => s

/-- R52: `MemRead(off, 4)`. -/
def memRead (off : Nat) (s : State) : Word := readReg (regAt off) s

/-- R220: `Reset()`. It resets the block's record; the host keeps its program, its place and what it has read. -/
def resetInput (s : State) : State :=
  { State.reset with prog := s.prog, hpc := s.hpc, reads := s.reads, wait := s.wait, issues := s.issues }

end Sys2Proof.Machine
end

