-- ==== Sys2Proof/Machine/RoundEngine.lean ====
section
/-! DEFINITION. The round engine (spec/44_round_engine.md R160 to R168). A round computes a fresh Block from the
whole input Block (R162); the column index `j + k` is taken mod 4, which is what addition in Fin 4 is. -/

namespace Sys2Proof.Machine

/-- R138: `SK(r) = [X[4r], X[4r+1], X[4r+2], X[4r+3]]`. With Nr of 10, 12 or 14 every index is inside the store. -/
def sk (x : Store) (r : Nat) : Block := Vector.ofFn fun c => x.toList.getD (4 * r + c.val) 0

/-- R160. -/
def addRoundKey (k s : Block) : Block := Vector.ofFn fun j => s.get j ^^^ k.get j

/-- R163. -/
def encRound (s k : Block) : Block := Vector.ofFn fun j =>
  tbox 0 (byteOf (s.get (j + 0)) 0) ^^^ tbox 1 (byteOf (s.get (j + 1)) 1) ^^^
  tbox 2 (byteOf (s.get (j + 2)) 2) ^^^ tbox 3 (byteOf (s.get (j + 3)) 3) ^^^ k.get j

/-- R164. -/
def encFinal (s k : Block) : Block := Vector.ofFn fun j =>
  ((sbox (byteOf (s.get (j + 0)) 0)).setWidth 32 <<< 24) ^^^ ((sbox (byteOf (s.get (j + 1)) 1)).setWidth 32 <<< 16) ^^^
  ((sbox (byteOf (s.get (j + 2)) 2)).setWidth 32 <<< 8) ^^^ (sbox (byteOf (s.get (j + 3)) 3)).setWidth 32 ^^^ k.get j

/-- R165: bytes 1 and 3 come from the mirrored columns. -/
def decRound (s k : Block) : Block := Vector.ofFn fun j =>
  ubox 0 (byteOf (s.get (j + 0)) 0) ^^^ ubox 1 (byteOf (s.get (j + 3)) 1) ^^^
  ubox 2 (byteOf (s.get (j + 2)) 2) ^^^ ubox 3 (byteOf (s.get (j + 1)) 3) ^^^ k.get j

/-- R166. -/
def decFinal (s k : Block) : Block := Vector.ofFn fun j =>
  ((invSbox (byteOf (s.get (j + 0)) 0)).setWidth 32 <<< 24) ^^^
  ((invSbox (byteOf (s.get (j + 3)) 1)).setWidth 32 <<< 16) ^^^
  ((invSbox (byteOf (s.get (j + 2)) 2)).setWidth 32 <<< 8) ^^^
  (invSbox (byteOf (s.get (j + 1)) 3)).setWidth 32 ^^^ k.get j

/-- R161, R167: Initial, Nr-1 standard rounds, Final, over a stored encryption schedule. -/
def encryptBlock (p : Block) (x : Store) (nr : Nat) : Block :=
  encFinal ((List.range (nr - 1)).foldl (fun s r => encRound s (sk x (r + 1))) (addRoundKey (sk x 0) p)) (sk x nr)

/-- R161, R168: the same sequence over a stored decryption schedule. -/
def decryptBlock (c : Block) (x : Store) (nr : Nat) : Block :=
  decFinal ((List.range (nr - 1)).foldl (fun s r => decRound s (sk x (r + 1))) (addRoundKey (sk x 0) c)) (sk x nr)

end Sys2Proof.Machine
end

