-- ==== Sys2Proof/Machine/BlockCipher.lean ====
section
/-! DEFINITION. The meanings of ENC and DEC (spec/45_commands.md R184, R185). -/

namespace Sys2Proof.Machine

/-- R184. At the core's step: DOUT takes the encryption of the block latched at issue under ESCHED. At the host's:
the issue. -/
def execEnc (len : Byte) (s : State) : Result :=
  match s.completing with
  | some p =>
    if roundsLegal s.kinfo.nr then
      .next (finish { s with dout := encryptBlock p.dinl s.esched s.kinfo.nr.toNat })
    else .fault .scheduleIllegal
  | none => .next (issue (validateBlock (.enc len) len s.status) s)

/-- R185. At the core's step: DOUT takes the decryption of the block latched at issue under DSCHED. At the host's:
the issue. -/
def execDec (len : Byte) (s : State) : Result :=
  match s.completing with
  | some p =>
    if roundsLegal s.kinfo.nr then
      .next (finish { s with dout := decryptBlock p.dinl s.dsched s.kinfo.nr.toNat })
    else .fault .scheduleIllegal
  | none => .next (issue (validateBlock (.dec len) len s.status) s)

end Sys2Proof.Machine
end

