-- ==== Sys2Proof/Machine/KeyExpand.lean ====
section
/-! DEFINITION. The meaning of EXPK (spec/45_commands.md R183). -/

namespace Sys2Proof.Machine

/-- R183. At the core's step: both stores, KINFO and KVALID are written from the key words latched at issue, of which
only the first Nk are read (D24). At the host's: the issue. -/
def execExpk (len : Byte) (s : State) : Result :=
  match s.completing with
  | some p =>
    if keyLenLegal p.arg.toNat then
      match expandKey (p.keyl.toList.take p.arg.toNat) with
      | .ok (e, d) => .next (finishExpand p.arg { s with esched := e.flatten, dsched := d.flatten })
      | .error _ => .fault .pendingIllegal
    else .fault .pendingIllegal
  | none => .next (issue (validateExpk len) s)

end Sys2Proof.Machine
end

