-- ==== Sys2Proof/Machine/TableRead.lean ====
section
/-! DEFINITION. The meaning of TBL (spec/45_commands.md R182). -/

namespace Sys2Proof.Machine

/-- R182. At the core's step: TOUT takes the entry that PEND selects. At the host's: the issue. -/
def execTbl (tsel : BitVec 4) (tidx : Byte) (s : State) : Result :=
  match s.completing with
  | some p =>
    match tableOfTsel p.tsel with
    | some t => .next (finish { s with tout := tableEntry t p.arg })
    | none => .fault .pendingIllegal
  | none => .next (issue (validateTbl tsel tidx) s)

end Sys2Proof.Machine
end

