-- ==== Sys2Proof/Machine/Dispatch.lean ====
section
/-! DEFINITION. One arm per command (spec/45_commands.md R188). A command has two steps (R180), and its meaning covers
both: the host's, its issue, and the core's, its completion; the state says whose step it is (State.coreTurn). -/

namespace Sys2Proof.Machine

def exec (i : Instr) (s : State) : Host.Outcome State Fault Refusal :=
  match i with
  | .tbl tsel tidx => Sys2Proof.Machine.execTbl tsel tidx s
  | .expk len => Sys2Proof.Machine.execExpk len s
  | .enc len => Sys2Proof.Machine.execEnc len s
  | .dec len => Sys2Proof.Machine.execDec len s

end Sys2Proof.Machine
end

