-- ==== Sys2Proof/Machine/Agents.lean ====
section
/-! DEFINITION. The steps of the two agents (spec/10_state.md R20): the host's transactions, branches and resets, and
the core's completion. -/

namespace Sys2Proof.Machine

/-- R181: `CommandWrite(v)`. A word that decodes to Illegal is rejected when the core is idle and dropped, undecoded,
when it is busy (R187). -/
def commandWrite (v : Word) (s : State) : Result :=
  match decode v with
  | .ok i => exec i s
  | .error _ => .next (issue (.error .illegalCommand) s)

/-- R53: `MemWrite(off, 4, v)`. -/
def memWrite (off : Nat) (v : Word) (s : State) : Result :=
  match regAt off with
  | .cmd => commandWrite v s
  | r => .next (writeReg r v s)

/-- R79: the value of a host name: what the last RD of it returned. -/
def hostValue (name : Nat) (s : State) : Word := (s.reads.lookup name).getD (Config.unboundName name)

/-- What a host step leaves for the model's own fields: the host stands at `pc`, and if a command was pending before
the step (`s`), one fewer host step precedes its completion. -/
def afterHost (s : State) (pc : Nat) (t : State) : State :=
  { t with hpc := pc, wait := if s.pend.isSome then t.wait - 1 else t.wait }

/-- R51, R52, R79: an RD. -/
def hostRead (off n name : Nat) (s : State) : Result :=
  if legalAccess off n then .next { s with reads := (name, memRead off s) :: s.reads } else .refused (.badAccess off n)

/-- R51, R53, R79: a WR. -/
def hostWrite (off n : Nat) (v : Word) (s : State) : Result :=
  if legalAccess off n then memWrite off v s else .refused (.badAccess off n)

/-- R79: where the host stands after a BNZ: `if (name & mask) != 0 goto label`. -/
def branchTarget (name : Nat) (mask : Word) (target : Nat) (s : State) : Nat :=
  if hostValue name s &&& mask ≠ 0 then target else s.hpc + 1

/-- One step of the host. -/
def hostStep (st : HostStmt) (s : State) : Result :=
  match st with
  | .read off n name => mapNext (afterHost s (s.hpc + 1)) (hostRead off n name s)
  | .write off n v => mapNext (afterHost s (s.hpc + 1)) (hostWrite off n v s)
  | .bnz name mask target => .next (afterHost s (branchTarget name mask target s) s)
  | .reset => .next (afterHost s (s.hpc + 1) (resetInput s))

/-- R186: `Complete()`, the command read from the fields latched in PEND. -/
def coreStep (p : Pending) (s : State) : Result :=
  match decodeFields p.op p.tsel p.arg with
  | .ok i => exec i s
  | .error _ => .fault .pendingIllegal

/-- R231: a run has ended when the host has no next step and nothing is pending. -/
def State.ended (s : State) : Bool := s.nextStmt.isNone && s.pend.isNone

/-- R231: what is observed of a run: the block's record and the values the host's reads returned. The host's program,
its place in it and the points at which completions fell are not part of it, so they are set to their reset values. -/
def observe (s : State) : State := { s with prog := [], hpc := 0, wait := 0, issues := 0 }

end Sys2Proof.Machine
end

