-- ==== Sys2Proof/Machine/Step.lean ====
section
/-! DEFINITION. One step of the machine: one step of one agent, in one total order (spec/20_memory.md R60). -/

namespace Sys2Proof.Machine

/-- R20, R60: the core's completion when it is next, else the host's next step. When neither agent has a step the
block is idle and holds its state (R214, R231). -/
def step (s : State) : Host.Outcome State Fault Refusal :=
  match s.completing, s.nextStmt with
  | some p, _ => coreStep p s
  | none, some st => hostStep st s
  | none, none => .next s

/-- `s` with the write of a command word to CMD as the host's next step, in the place of the one that stood there. That
is where a command comes from (R22, R63). A pending completion is held back by the one step that this write takes. -/
def State.withFetchWord (s : State) (nbits w : Nat) : State :=
  { s with
    prog := s.prog.take s.hpc ++ .write 0x000 4 (BitVec.ofNat 32 (w % 2 ^ nbits)) :: s.prog.drop (s.hpc + 1)
    hpc := min s.hpc s.prog.length
    wait := if s.pend.isSome then s.wait + 1 else s.wait }

end Sys2Proof.Machine
end

