-- ==== Sys2Proof/Machine/HostProgram.lean ====
section
/-! DEFINITION. The assembler of commands and of host programs (spec/30_encoding.md R78 to R80), as functions on
abstract syntax: from what a programmer writes to the steps that State.prog holds. -/

namespace Sys2Proof.Machine

/-- R78: the first operand of TBL, a table's name or its number. -/
inductive AsmTable where
  | named (t : Table)
  | number (n : Nat)
deriving DecidableEq, Repr

/-- R78: the command syntax. -/
inductive AsmCmd where
  | tbl (tsel : AsmTable) (tidx : Nat)
  | expk (len : Nat)
  | enc (len : Nat)
  | dec (len : Nat)
deriving DecidableEq, Repr

/-- R78: `tsel` is a table's name or a number from 0 to 9. -/
def asmTsel : AsmTable → Option (BitVec 4)
  | .named t => some (tselOfTable t)
  | .number n => if n ≤ 9 then some (BitVec.ofNat 4 n) else none

/-- R78: `tidx` and `len` are numbers from 0 to 255. -/
def asmByte (n : Nat) : Option Byte := if n ≤ 255 then some (BitVec.ofNat 8 n) else none

/-- The command that a line of R78 writes; none where an operand is out of its range. -/
def asmInstr : AsmCmd → Option Instr
  | .tbl tsel tidx => (asmTsel tsel).bind fun t => (asmByte tidx).map fun b => .tbl t b
  | .expk len => (asmByte len).map .expk
  | .enc len => (asmByte len).map .enc
  | .dec len => (asmByte len).map .dec

/-- R78: the word that a command assembles to. -/
def asmWord (c : AsmCmd) : Option Word := (asmInstr c).map encode

/-- A label: the programmer's own, or one that the assembler makes for a WAIT (R80: "fresh per use"). -/
inductive HostLabel where
  | named (n : Nat)
  | fresh (n : Nat)
deriving DecidableEq, Repr

/-- R79: one line of a host program. -/
inductive HostLine where
  | wr (r : Reg) (v : Word)
  | rd (r : Reg) (name : Nat)
  | label (l : HostLabel)
  | bnz (name : Nat) (mask : Word) (l : HostLabel)
  | reset
deriving DecidableEq, Repr

/-- R80: a line, or a pseudo-instruction. -/
inductive HostMacro where
  | line (l : HostLine)
  | cmd (c : AsmCmd)
  | wait
  | setkey (ks : List Word)
  | setblk (d0 d1 d2 d3 : Word)
  | getblk (o0 o1 o2 o3 : Nat)
deriving DecidableEq, Repr

/-- R80: the name `s` that WAIT reads STATUS into. -/
def waitName : Nat := 0

/-- R80: SETKEY, a WR to each key register in order, n ≤ 8 of them. -/
def setKeyLines (ks : List Word) : Option (List HostLine) :=
  if ks.length ≤ 8 then some (ks.zipIdx.map fun (k, i) => .wr (.key (Fin.ofNat 8 i)) k) else none

/-- R80: the expansion of a line, the `k`-th of its program. -/
def expandMacro (k : Nat) : HostMacro → Option (List HostLine)
  | .line l => some [l]
  | .cmd c => (asmWord c).map fun w => [.wr .cmd w]
  | .wait => some [.label (.fresh k), .rd .status waitName, .bnz waitName 0x1 (.fresh k)]
  | .setkey ks => setKeyLines ks
  | .setblk d0 d1 d2 d3 => some [.wr (.din 0) d0, .wr (.din 1) d1, .wr (.din 2) d2, .wr (.din 3) d3]
  | .getblk o0 o1 o2 o3 => some [.rd (.dout 0) o0, .rd (.dout 1) o1, .rd (.dout 2) o2, .rd (.dout 3) o3]

/-- The expansion of a program from its `k`-th line on. -/
def expandFrom : Nat → List HostMacro → Option (List HostLine)
  | _, [] => some []
  | k, m :: ms => (expandMacro k m).bind fun ls => (expandFrom (k + 1) ms).map fun rest => ls ++ rest

/-- The labels of a program, in order. -/
def labelsOf : List HostLine → List HostLabel
  | [] => []
  | .label l :: ls => l :: labelsOf ls
  | _ :: ls => labelsOf ls

/-- R79: the position that a label names: how many steps stand before it. -/
def labelPos (l : HostLabel) : Nat → List HostLine → Option Nat
  | _, [] => none
  | n, .label m :: ls => if m = l then some n else labelPos l n ls
  | n, _ :: ls => labelPos l (n + 1) ls

/-- R79: the steps of the rest `ls` of the program `all`, its register names and labels resolved. -/
def resolveLines (all : List HostLine) : List HostLine → Option (List HostStmt)
  | [] => some []
  | .label _ :: ls => resolveLines all ls
  | .wr r v :: ls => (regOffset r).bind fun o => (resolveLines all ls).map fun rest => .write o 4 v :: rest
  | .rd r name :: ls => (regOffset r).bind fun o => (resolveLines all ls).map fun rest => .read o 4 name :: rest
  | .bnz name mask l :: ls =>
    (labelPos l 0 all).bind fun p => (resolveLines all ls).map fun rest => .bnz name mask p :: rest
  | .reset :: ls => (resolveLines all ls).map fun rest => .reset :: rest

/-- R79, R80: the steps of a host program; none where an operand is out of range, a label is missing or one label
stands twice (log entry 5). -/
def assembleHost (ms : List HostMacro) : Option (List HostStmt) :=
  (expandFrom 0 ms).bind fun ls => if (labelsOf ls).Nodup then resolveLines ls ls else none

end Sys2Proof.Machine
end

