-- ==== Sys2Proof/Machine/Timing.lean ====
section
/-! DEFINITION. The form of the timing (spec/70_reset_and_hazards.md R230). No step reads it: the model has no clock. -/

namespace Sys2Proof.Machine

/-- R230: the NR argument of a command's latency. For EXPK it is the NR of the schedule being made, else KINFO.NR. -/
def latencyRounds (i : Instr) (s : State) : Nat :=
  match i with
  | .tbl _ _ => s.kinfo.nr.toNat
  | .expk len => len.toNat + 6
  | .enc _ => s.kinfo.nr.toNat
  | .dec _ => s.kinfo.nr.toNat

/-- R229, R230: `LATENCY(op, NR)` of a command accepted in `s`, by its opcode and round count alone. -/
def commandLatency (i : Instr) (s : State) : Nat := Config.latency i.op (latencyRounds i s)

end Sys2Proof.Machine
end

