-- ==== Sys2Proof/Safety.lean ====
section
/-! DEFINITION. What the spec promises of every reachable state, and what a safe step is: the terms that statements
use. -/

namespace Sys2Proof.Machine

/-- The machine's next step is the host's, and it is `st`. -/
def State.hostNext (s : State) (st : HostStmt) : Prop := s.coreTurn = false ∧ s.nextStmt = some st

/-- The machine's next step is the core's, the completion of `p`: its host steps have passed, or the host has none. -/
def State.coreNext (s : State) (p : Pending) : Prop := s.pend = some p ∧ (s.wait = 0 ∨ s.nextStmt = none)

/-- R72: each TSEL, and the TOUT value as a function of the index. -/
def tblRows : List (BitVec 4 × (Byte → Word)) :=
  [(0, fun b => (sbox b).setWidth 32), (1, fun b => (invSbox b).setWidth 32),
   (2, tbox 0), (3, tbox 1), (4, tbox 2), (5, tbox 3), (6, ubox 0), (7, ubox 1), (8, ubox 2), (9, ubox 3)]

/-- R181: whether validation accepts a command when KVALID is `kvalid`. -/
def acceptable (i : Instr) (kvalid : Bool) : Bool :=
  match i with
  | .tbl tsel _ => decide (tsel ≤ 9)
  | .expk len => len == 4 || len == 6 || len == 8
  | .enc len => len == 4 && kvalid
  | .dec len => len == 4 && kvalid

/-- PEND holds the fields of a command that an issue accepts (R32, R181). -/
def Pending.accepted (p : Pending) (kvalid : Bool) : Prop :=
  ∃ i, decodeFields p.op p.tsel p.arg = .ok i ∧ acceptable i kvalid = true

/-- R28, R29: the three things KINFO can show beside KVALID = 1, and what it shows beside KVALID = 0. -/
def kinfoLegal (kvalid : Bool) (k : KInfo) : Prop :=
  if kvalid then (k.nk = 4 ∧ k.nr = 10) ∨ (k.nk = 6 ∧ k.nr = 12) ∨ (k.nk = 8 ∧ k.nr = 14) else k.nk = 0 ∧ k.nr = 0

/-- R31, D9: the two stores hold the two schedules of one key of NK words, or nothing at all when KVALID = 0. -/
def storesLegal (s : State) : Prop :=
  if s.status.kvalid then
    ∃ key e d, key.length = s.kinfo.nk.toNat ∧ expandKey key = .ok (e, d) ∧ s.esched = e.flatten ∧ s.dsched = d.flatten
  else s.esched = Vector.replicate 60 0 ∧ s.dsched = Vector.replicate 60 0

/-- What holds in every reachable state of the block. -/
structure State.Inv (s : State) : Prop where
  /-- R21: `STATUS.BUSY = 1 ⇔ PEND ≠ none`. -/
  busy_pend : s.status.busy = s.pend.isSome
  /-- R181: what is pending was accepted. -/
  pend_accepted : ∀ p, s.pend = some p → p.accepted s.status.kvalid
  /-- R187: ERR is 0 while a command is pending. -/
  pend_err : s.pend.isSome = true → s.status.err = .none
  /-- R29. -/
  kinfo_legal : kinfoLegal s.status.kvalid s.kinfo
  /-- R31. -/
  stores_legal : storesLegal s

/-- What of a state is not data: KEY, DIN, DOUT, TOUT, the stores, the latched key and block, and what the host has read
are erased, and STATUS, KINFO, PEND's own fields, the host's place and the completion schedule are kept. -/
def State.control (s : State) : State :=
  { s with
    key := State.reset.key
    din := State.reset.din
    dout := State.reset.dout
    tout := State.reset.tout
    esched := State.reset.esched
    dsched := State.reset.dsched
    reads := State.reset.reads
    pend := s.pend.map fun p => { p with keyl := State.reset.key, dinl := State.reset.din } }

/-- A safe step is not a fault, and is refused only for the host's own transaction (R51, R207). -/
def stepSafe (s : State) : Prop :=
  match step s with
  | .next _ => True
  | .fault _ => False
  | .refused r => ∃ off n, r = .badAccess off n

end Sys2Proof.Machine
end

