-- ==== Sys2Proof/Certificates/Slice0/Obligations.lean ====
section
/-! DEFINITION. The statements for the provers. Each docstring names the rule of spec/ that it formalises. -/

open Sys2Proof Sys2Proof.Machine

/-! ### Encoding -/

/-- R70, R75, R78: no bit of a command's encoding is dropped. -/
def Obligations.DecodeOfEncodeIsTheCommand : Prop :=
  ∀ i : Instr, i.wellFormed = true → decode (encode i) = .ok i

/-- R75, R77: a word has one meaning at most, and a word that decodes is the encoding of a well-formed command. -/
def Obligations.EncodeOfDecodeIsTheWord : Prop :=
  ∀ (w : Word) (i : Instr), decode w = .ok i → encode i = w ∧ i.wellFormed = true

/-- R75: the decoder's four rows as masks and matches, with the range condition on TBL's TSEL and the operand fields,
and that every other word is Illegal. -/
def Obligations.DecoderRowsAreMaskAndMatch : Prop :=
  ∀ w : Word,
    (∀ tsel tidx, decode w = .ok (.tbl tsel tidx) ↔ w &&& 0xFFFF000F = 0x00000001 ∧ tsel ≤ 9 ∧
      tsel = w.extractLsb' 4 4 ∧ tidx = w.extractLsb' 8 8) ∧
    (∀ len, decode w = .ok (.expk len) ↔ w &&& 0xFFFF00FF = 0x00000002 ∧ len = w.extractLsb' 8 8) ∧
    (∀ len, decode w = .ok (.enc len) ↔ w &&& 0xFFFF00FF = 0x00000003 ∧ len = w.extractLsb' 8 8) ∧
    (∀ len, decode w = .ok (.dec len) ↔ w &&& 0xFFFF00FF = 0x00000004 ∧ len = w.extractLsb' 8 8) ∧
    ((∃ e, decode w = .error e) ↔
      ¬ (w &&& 0xFFFF000F = 0x00000001 ∧ w.extractLsb' 4 4 ≤ (9 : BitVec 4)) ∧ ¬ w &&& 0xFFFF00FF = 0x00000002 ∧
      ¬ w &&& 0xFFFF00FF = 0x00000003 ∧ ¬ w &&& 0xFFFF00FF = 0x00000004)

/-- R76: the illegal words, listed by their fields, and what issuing one while idle does. -/
def Obligations.IllegalWordsAreListedAndOnlyReported : Prop :=
  (∀ w : Word, (∃ e, decode w = .error e) ↔
    (w.extractLsb' 16 16 ≠ 0 ∨
     (w.extractLsb' 0 4 = 0 ∨ 5 ≤ (w.extractLsb' 0 4).toNat) ∨
     (w.extractLsb' 0 4 = 1 ∧ 0xA ≤ (w.extractLsb' 4 4).toNat) ∨
     (2 ≤ (w.extractLsb' 0 4).toNat ∧ (w.extractLsb' 0 4).toNat ≤ 4 ∧ w.extractLsb' 4 4 ≠ 0))) ∧
  (∀ (w : Word) (e : Illegal) (s : State), decode w = .error e → s.status.busy = false →
    commandWrite w s = .next { s with status := { s.status with err := .illegalCommand, ovr := false } })

/-- R78 and the table of spec/95_test_vectors.md 2.6: words written out bit by bit from the format, one of each row. -/
def Obligations.WordsWrittenOutDecode : Prop :=
  decode 0b00000000000000000101001100000001 = .ok (.tbl 0 0x53) ∧
  decode 0b00000000000000001111111110010001 = .ok (.tbl 9 0xFF) ∧
  decode 0b00000000000000000000010000000010 = .ok (.expk 4) ∧
  decode 0b00000000000000000000010000000011 = .ok (.enc 4) ∧
  decode 0b00000000000000000000010000000100 = .ok (.dec 4)

/-- R78: the word that each command assembles to, for operands in their ranges, a table by its number or its name. -/
def Obligations.AssembledWordIsTheFieldsOred : Prop :=
  ∀ (n a : Nat), n ≤ 9 → a ≤ 255 →
    asmWord (.tbl (.number n) a) = some ((BitVec.ofNat 32 a <<< 8) ||| (BitVec.ofNat 32 n <<< 4) ||| 1) ∧
    (∀ t : Table, [Table.sbox, .invSbox, .t0, .t1, .t2, .t3, .u0, .u1, .u2, .u3][n]? = some t →
      asmWord (.tbl (.named t) a) = asmWord (.tbl (.number n) a)) ∧
    asmWord (.expk a) = some ((BitVec.ofNat 32 a <<< 8) ||| 2) ∧
    asmWord (.enc a) = some ((BitVec.ofNat 32 a <<< 8) ||| 3) ∧
    asmWord (.dec a) = some ((BitVec.ofNat 32 a <<< 8) ||| 4)

/-- R80: a host program of every pseudo-instruction, with a SETKEY of any number of words up to 8 and any two commands
that assemble, and the transactions it stands for; each WAIT's label is the position of its own read. That programs are
abstract syntax and that WAIT reads into the name `waitName` are the model's choice (log entry 5). -/
def Obligations.PseudoInstructionsExpand : Prop :=
  ∀ (ks : List Word) (c c' : AsmCmd) (w w' d0 d1 d2 d3 : Word) (o0 o1 o2 o3 : Nat),
    ks.length ≤ 8 → asmWord c = some w → asmWord c' = some w' →
    assembleHost [.setkey ks, .cmd c, .wait, .setblk d0 d1 d2 d3, .cmd c', .wait, .getblk o0 o1 o2 o3] =
      some ((List.range ks.length).map (fun i => .write (0x010 + 4 * i) 4 (ks.getD i 0)) ++
        [.write 0x000 4 w, .read 0x004 4 waitName, .bnz waitName 1 (ks.length + 1),
          .write 0x030 4 d0, .write 0x034 4 d1, .write 0x038 4 d2, .write 0x03C 4 d3, .write 0x000 4 w',
          .read 0x004 4 waitName, .bnz waitName 1 (ks.length + 8),
          .read 0x040 4 o0, .read 0x044 4 o1, .read 0x048 4 o2, .read 0x04C 4 o3])

/-! ### Words and the field -/

/-- R10: packing and unpacking are exact inverses. -/
def Obligations.PackAndUnpackAreInverse : Prop :=
  (∀ w : Word, pack (unpack w) = w) ∧ (∀ b : Bytes4, unpack (pack b) = b)

/-- R12: the rotations of a list of bytes, and that each rotates the packed Word. -/
def Obligations.ListRotationsRotateTheWord : Prop :=
  (∀ a b c d : Byte, rotlistRight 1 #v[a, b, c, d] = #v[d, a, b, c] ∧ rotlistLeft1 #v[a, b, c, d] = #v[b, c, d, a]) ∧
  (∀ (l : Bytes4) (n : Nat), rotlistRight 0 l = l ∧ rotlistRight (n + 1) l = rotlistRight 1 (rotlistRight n l)) ∧
  (∀ (l : Bytes4) (n : Nat), pack (rotlistRight n l) = ror32 (pack l) (8 * n)) ∧
  (∀ l : Bytes4, pack (rotlistLeft1 l) = rol32 (pack l) 8)

/-- R102, corner cases: the bytes form a commutative ring under ⊕ and ·. -/
def Obligations.GfMulIsARing : Prop :=
  ∀ x y z : Byte,
    gfMul 0 y = 0 ∧ gfMul 1 y = y ∧ gfMul x y = gfMul y x ∧
    gfMul (gfMul x y) z = gfMul x (gfMul y z) ∧ gfMul x (gfAdd y z) = gfAdd (gfMul x y) (gfMul x z)

/-- R103, D26: repeated squaring computes the product of k copies. -/
def Obligations.GfPowIsTheProduct : Prop :=
  ∀ (x : Byte) (k : Nat), gfPow x 0 = 1 ∧ gfPow x (k + 1) = gfMul (gfPow x k) x

/-- R105: every nonzero byte times its inverse is 1; zero times its inverse, which is zero (R104), is zero. -/
def Obligations.InverseTimesByteIsOne : Prop :=
  (∀ x : Byte, x ≠ 0 → gfMul x (gfInv x) = 1) ∧ gfMul 0 (gfInv 0) = 0 ∧ gfInv 0 = 0

/-- R107: multiplication by the small constants, from doublings. -/
def Obligations.SmallConstantsAreDoublings : Prop :=
  ∀ b : Byte,
    gfMul 2 b = xtime b ∧ gfMul 3 b = xtime b ^^^ b ∧
    gfMul 9 b = xtime (xtime (xtime b)) ^^^ b ∧
    gfMul 0xB b = xtime (xtime (xtime b)) ^^^ xtime b ^^^ b ∧
    gfMul 0xD b = xtime (xtime (xtime b)) ^^^ xtime (xtime b) ^^^ b ∧
    gfMul 0xE b = xtime (xtime (xtime b)) ^^^ xtime (xtime b) ^^^ xtime b

/-! ### The ROM tables -/

/-- R120, R121: the affine maps in their bit form. -/
def Obligations.AffineMapsInBitForm : Prop :=
  ∀ (y : Byte) (i : Nat), i < 8 →
    (affine y).getLsbD i = (y.getLsbD i ^^ y.getLsbD ((i + 4) % 8) ^^ y.getLsbD ((i + 5) % 8) ^^
      y.getLsbD ((i + 6) % 8) ^^ y.getLsbD ((i + 7) % 8) ^^ (0x63 : Byte).getLsbD i) ∧
    (invAffine y).getLsbD i = (y.getLsbD ((i + 2) % 8) ^^ y.getLsbD ((i + 5) % 8) ^^ y.getLsbD ((i + 7) % 8) ^^
      (0x05 : Byte).getLsbD i)

/-- R122: the two S-boxes undo each other, so do the two affine maps, and the inverse undoes itself, zero included. -/
def Obligations.SboxesUndoEachOther : Prop :=
  ∀ x : Byte, invSbox (sbox x) = x ∧ sbox (invSbox x) = x ∧ invAffine (affine x) = x ∧ affine (invAffine x) = x ∧
    gfInv (gfInv x) = x

/-- R155: entry b of T-table n is column n of the forward diffusion matrix scaled by SBOX[b], where column 0 is
(2, 1, 1, 3) and each later column is the one before it rotated down by one byte; and entry b of U-table n is column n
of M scaled by INV_SBOX[b]. -/
def Obligations.TablesAreScaledMatrixColumns : Prop :=
  ∀ (b : Byte) (n r : Fin 4),
    byteOf (tbox n b) r = gfMul ((#v[2, 1, 1, 3] : Bytes4).get (r - n)) (sbox b) ∧
    byteOf (ubox n b) r = gfMul ((invMatrix.get r).get n) (invSbox b)

/-! ### The key scheduler -/

/-- R130 to R133: the round constants by doubling, rotWord and subWord byte by byte, and the word sequence by its
recurrence over them, for a key of 4, 6 or 8 words. -/
def Obligations.ExpandedWordsFollowTheRecurrence : Prop :=
  (rc 1 = 1 ∧ ∀ i, 1 ≤ i → rc (i + 1) = gfMul 2 (rc i)) ∧
  (∀ w : Word, rotWord w = rol32 w 8) ∧
  (∀ (w : Word) (k : Fin 4), byteOf (subWord w) k = sbox (byteOf w k)) ∧
  ∀ key : List Word, key.length = 4 ∨ key.length = 6 ∨ key.length = 8 →
    (expandWords key).length = 4 * (key.length + 6 + 1) ∧
    ∀ i, i < 4 * (key.length + 6 + 1) →
      (expandWords key).getD i 0 =
        if i < key.length then key.getD i 0
        else if i % key.length = 0 then
          (expandWords key).getD (i - key.length) 0 ^^^ subWord (rotWord ((expandWords key).getD (i - 1) 0)) ^^^
            ((rc (i / key.length)).setWidth 32 <<< 24)
        else if i % key.length = 4 ∧ key.length > 6 then
          (expandWords key).getD (i - key.length) 0 ^^^ subWord ((expandWords key).getD (i - 1) 0)
        else (expandWords key).getD (i - key.length) 0 ^^^ (expandWords key).getD (i - 1) 0

/-- R136: each byte of each column from the matrix M, and the corner cases: the map is linear over ⊕, and a column of
four equal bytes, zero among them, maps to itself. -/
def Obligations.InvMixColumnsIsTheMatrix : Prop :=
  (∀ (s : Block) (c r : Fin 4), byteOf ((invMixColumns s).get c) r =
    let m := (#v[#v[0xE, 0xB, 0xD, 0x9], #v[0x9, 0xE, 0xB, 0xD], #v[0xD, 0x9, 0xE, 0xB], #v[0xB, 0xD, 0x9, 0xE]] :
      Vector Bytes4 4).get r
    gfMul m[0] (byteOf (s.get c) 0) ^^^ gfMul m[1] (byteOf (s.get c) 1) ^^^ gfMul m[2] (byteOf (s.get c) 2) ^^^
      gfMul m[3] (byteOf (s.get c) 3)) ∧
  (∀ (s t : Block) (c : Fin 4),
    (invMixColumns (Vector.ofFn fun j => s.get j ^^^ t.get j)).get c = (invMixColumns s).get c ^^^ (invMixColumns t).get c) ∧
  (∀ v : Byte, invMixColumn (pack #v[v, v, v, v]) = pack #v[v, v, v, v]) ∧ invMixColumn 0 = 0

/-- R139: the length check, and what the failure is. -/
def Obligations.ExpandKeyFailsOnOtherLengths : Prop :=
  ∀ key : List Word,
    (key.length = 4 ∨ key.length = 6 ∨ key.length = 8 →
      expandKey key = .ok (encSched (key.length + 6) (expandWords key), decSched (key.length + 6) (expandWords key))) ∧
    (¬ (key.length = 4 ∨ key.length = 6 ∨ key.length = 8) → expandKey key = .error .invalidKeySize)

/-- R138: where each word of a schedule of Nr rounds stands in its store, what fills the rest, and how the round engine
reads round key r back. -/
def Obligations.StoreLaysTheScheduleOut : Prop :=
  ∀ (sch : Schedule) (nr : Nat) (c : Fin 4), 1 ≤ nr → nr ≤ 14 → sch.middle.length = nr - 1 →
    sch.flatten.toList.getD (4 * 0 + c.val) 0 = sch.initial.get c ∧
    (∀ (m : Nat) (h : m < sch.middle.length), sch.flatten.toList.getD (4 * (m + 1) + c.val) 0 = sch.middle[m].get c) ∧
    sch.flatten.toList.getD (4 * nr + c.val) 0 = sch.final.get c ∧
    (∀ i : Fin 60, 4 * (nr + 1) ≤ i.val → sch.flatten.get i = 0) ∧
    (∀ (x : Store) (r : Nat) (h : 4 * r + c.val < 60), (sk x r).get c = x.get ⟨4 * r + c.val, h⟩) ∧
    (∀ (w : List Word) (i : Nat), sch = encSched nr w → i < 4 * (nr + 1) → sch.flatten.toList.getD i 0 = w.getD i 0)

/-- R135, R138: after expandKey the encryption store is the word sequence, then zeros. -/
def Obligations.EncryptionStoreIsTheWordSequence : Prop :=
  ∀ (key : List Word) (e d : Schedule) (i : Fin 60), expandKey key = .ok (e, d) →
    e.flatten.get i = if i.val < 4 * (key.length + 7) then (expandWords key).getD i.val 0 else 0

/-- R137, R138: the decryption store, row by row: the last round key, the middle keys from round Nr-1 down to round 1
through invMixColumns, the first round key, then zeros. -/
def Obligations.DecryptionStoreIsReversed : Prop :=
  ∀ (key : List Word) (e d : Schedule) (r : Nat) (c : Fin 4) (h : 4 * r + c.val < 60), expandKey key = .ok (e, d) →
    d.flatten.get ⟨4 * r + c.val, h⟩ =
      if r = 0 then (roundKey (expandWords key) (key.length + 6)).get c
      else if r < key.length + 6 then (invMixColumns (roundKey (expandWords key) (key.length + 6 - r))).get c
      else if r = key.length + 6 then (roundKey (expandWords key) 0).get c
      else 0

/-! ### The round engine -/

/-- R160, R163 to R168: addRoundKey and the four round functions, column by column, with the source columns written
out; how a round key is read from its store; and the round sequence of each direction, Initial, Nr-1 standard rounds in order, Final, where `b r` is the block
after round r. -/
def Obligations.RoundsGatherTheirColumns : Prop :=
  (∀ (p : Block) (x : Store) (nr : Nat) (b : Nat → Block), 1 ≤ nr → b 0 = addRoundKey (sk x 0) p →
    ((∀ r, 1 ≤ r → r ≤ nr - 1 → b r = encRound (b (r - 1)) (sk x r)) →
      encryptBlock p x nr = encFinal (b (nr - 1)) (sk x nr)) ∧
    ((∀ r, 1 ≤ r → r ≤ nr - 1 → b r = decRound (b (r - 1)) (sk x r)) →
      decryptBlock p x nr = decFinal (b (nr - 1)) (sk x nr))) ∧
  (∀ (x : Store) (r : Nat) (c : Fin 4) (h : 4 * r + c.val < 60), (sk x r).get c = x.get ⟨4 * r + c.val, h⟩) ∧
  ∀ (s k : Block) (j : Nat) (_ : j < 4),
    (addRoundKey k s)[j] = s[j] ^^^ k[j] ∧
    (encRound s k)[j] = tbox 0 (byteOf s[(j + 0) % 4] 0) ^^^ tbox 1 (byteOf s[(j + 1) % 4] 1) ^^^
      tbox 2 (byteOf s[(j + 2) % 4] 2) ^^^ tbox 3 (byteOf s[(j + 3) % 4] 3) ^^^ k[j] ∧
    (encFinal s k)[j] = ((sbox (byteOf s[(j + 0) % 4] 0)).setWidth 32 <<< 24) ^^^
      ((sbox (byteOf s[(j + 1) % 4] 1)).setWidth 32 <<< 16) ^^^
      ((sbox (byteOf s[(j + 2) % 4] 2)).setWidth 32 <<< 8) ^^^
      (sbox (byteOf s[(j + 3) % 4] 3)).setWidth 32 ^^^ k[j] ∧
    (decRound s k)[j] = ubox 0 (byteOf s[(j + 0) % 4] 0) ^^^ ubox 1 (byteOf s[(j + 3) % 4] 1) ^^^
      ubox 2 (byteOf s[(j + 2) % 4] 2) ^^^ ubox 3 (byteOf s[(j + 1) % 4] 3) ^^^ k[j] ∧
    (decFinal s k)[j] = ((invSbox (byteOf s[(j + 0) % 4] 0)).setWidth 32 <<< 24) ^^^
      ((invSbox (byteOf s[(j + 3) % 4] 1)).setWidth 32 <<< 16) ^^^
      ((invSbox (byteOf s[(j + 2) % 4] 2)).setWidth 32 <<< 8) ^^^
      (invSbox (byteOf s[(j + 1) % 4] 3)).setWidth 32 ^^^ k[j]

/-- R155: one decryption round with a key passed through invMixColumns is substitution of the gathered bytes, then
invMixColumns, as three separate steps would do it. -/
def Obligations.DecRoundFusesThreeSteps : Prop :=
  ∀ s k : Block,
    decRound s (invMixColumns k) =
      invMixColumns (addRoundKey k (Vector.ofFn fun j => pack #v[invSbox (byteOf (s.get j) 0),
        invSbox (byteOf (s.get (j + 3)) 1), invSbox (byteOf (s.get (j + 2)) 2), invSbox (byteOf (s.get (j + 1)) 3)]))

/-- R169: the round trip, for every key of a legal size and every block; the other order, DEC first, from the DEC-then-ENC
vectors of spec/95_test_vectors.md 2.5.5; and R169's inference for the block (from R184 and R185): DEC of what ENC left in
DOUT, with the schedule unchanged between them, leaves the plaintext in DOUT. -/
def Obligations.DecryptUndoesEncrypt : Prop :=
  (∀ (key : List Word) (e d : Schedule) (p : Block), expandKey key = .ok (e, d) →
    decryptBlock (encryptBlock p e.flatten (key.length + 6)) d.flatten (key.length + 6) = p ∧
    encryptBlock (decryptBlock p d.flatten (key.length + 6)) e.flatten (key.length + 6) = p) ∧
  (∀ (s u : State) (p q : Pending), s.Inv → s.coreNext p → p.op = 3 → u.coreNext q → q.op = 4 →
    u.dsched = s.dsched → u.kinfo = s.kinfo →
    ∃ t, exec (.enc 4) s = .next t ∧ (q.dinl = t.dout → ∃ v, exec (.dec 4) u = .next v ∧ v.dout = p.dinl))

/-- The source's known-answer vectors for the three key sizes (spec/95_test_vectors.md 1.1, R171). -/
def Obligations.KnownAnswerVectors : Prop :=
  ∀ v ∈ ([([0x00010203, 0x04050607, 0x08090a0b, 0x0c0d0e0f], #v[0x69c4e0d8, 0x6a7b0430, 0xd8cdb780, 0x70b4c55a]),
          ([0x00010203, 0x04050607, 0x08090a0b, 0x0c0d0e0f, 0x10111213, 0x14151617],
            #v[0xdda97ca4, 0x864cdfe0, 0x6eaf70a0, 0xec0d7191]),
          ([0x00010203, 0x04050607, 0x08090a0b, 0x0c0d0e0f, 0x10111213, 0x14151617, 0x18191a1b, 0x1c1d1e1f],
            #v[0x8ea2b7ca, 0x516745bf, 0xeafc4990, 0x4b496089])] : List (List Word × Block)),
    ∃ e d, expandKey v.1 = .ok (e, d) ∧
      encryptBlock #v[0x00112233, 0x44556677, 0x8899aabb, 0xccddeeff] e.flatten (v.1.length + 6) = v.2

/-! ### Issue -/

/-- R181: an accepted issue, of each command: it latches the fields with KEY and DIN, sets BUSY, clears OVR and ERR,
and changes nothing else of the block. (`wait` and `issues` are the model's own: log entry 1.) -/
def Obligations.AcceptedIssueLatchesTheCommand : Prop :=
  ∀ (i : Instr) (s : State), s.coreTurn = false → s.status.busy = false → acceptable i s.status.kvalid = true →
    exec i s = .next { s with
      status := { s.status with busy := true, ovr := false, err := .none }
      pend := some { op := i.op, tsel := i.tsel, arg := i.arg, keyl := s.key, dinl := s.din }
      wait := Config.completionDelay s.issues
      issues := s.issues + 1 }

/-- R202, R203: a rejected issue writes the first code that applies, clears OVR, and changes nothing else. The first
clause is every word that no command encodes, the second the same of a TBL term that no word encodes. -/
def Obligations.RejectedIssueOnlyReports : Prop :=
  ∀ (s : State) (tsel : BitVec 4) (b : Byte), s.coreTurn = false → s.status.busy = false →
    (∀ v e, decode v = .error e →
      commandWrite v s = .next { s with status := { s.status with ovr := false, err := .illegalCommand } }) ∧
    (9 < tsel → exec (.tbl tsel b) s = .next { s with status := { s.status with ovr := false, err := .illegalCommand } }) ∧
    (b ≠ 4 → b ≠ 6 → b ≠ 8 →
      exec (.expk b) s = .next { s with status := { s.status with ovr := false, err := .invalidKeySize } }) ∧
    (b ≠ 4 →
      exec (.enc b) s = .next { s with status := { s.status with ovr := false, err := .invalidBlockSize } } ∧
      exec (.dec b) s = .next { s with status := { s.status with ovr := false, err := .invalidBlockSize } }) ∧
    (s.status.kvalid = false →
      exec (.enc 4) s = .next { s with status := { s.status with ovr := false, err := .noSchedule } } ∧
      exec (.dec 4) s = .next { s with status := { s.status with ovr := false, err := .noSchedule } })

/-- R187: a CMD write while BUSY = 1, of any word, decodable or not, sets OVR and changes nothing else. -/
def Obligations.CmdWriteWhileBusyOnlySetsOvr : Prop :=
  ∀ (v : Word) (s : State), s.coreTurn = false → s.status.busy = true →
    commandWrite v s = .next { s with status := { s.status with ovr := true } }

/-- R181, at the step: what the host's write of any word to CMD does, every branch of `CommandWrite` in its order. -/
def Obligations.CommandWriteBranches : Prop :=
  ∀ (s : State) (v : Word), s.hostNext (.write 0x000 4 v) →
    ∃ t, step s = .next t ∧
      t = { s with
        hpc := s.hpc + 1
        wait := t.wait
        issues := t.issues
        pend := t.pend
        status := t.status } ∧
      (if s.status.busy then t.status = { s.status with ovr := true } ∧ t.pend = s.pend
       else match decode v with
        | .error _ => t.status = { s.status with ovr := false, err := .illegalCommand } ∧ t.pend = s.pend
        | .ok i =>
          if i.op = 2 ∧ ¬ (i.arg = 4 ∨ i.arg = 6 ∨ i.arg = 8) then
            t.status = { s.status with ovr := false, err := .invalidKeySize } ∧ t.pend = s.pend
          else if (i.op = 3 ∨ i.op = 4) ∧ i.arg ≠ 4 then
            t.status = { s.status with ovr := false, err := .invalidBlockSize } ∧ t.pend = s.pend
          else if (i.op = 3 ∨ i.op = 4) ∧ s.status.kvalid = false then
            t.status = { s.status with ovr := false, err := .noSchedule } ∧ t.pend = s.pend
          else
            t.status = { s.status with busy := true, ovr := false, err := .none } ∧
            t.pend = some { op := i.op, tsel := i.tsel, arg := i.arg, keyl := s.key, dinl := s.din })

/-! ### Completion -/

/-- R182: TBL completes, for every table and index: TOUT takes the entry, BUSY and PEND are cleared, nothing else
changes. -/
def Obligations.TblCompletionWritesTout : Prop :=
  ∀ (s : State) (p : Pending) (tsel : BitVec 4) (tidx : Byte) (f : Byte → Word), (tsel, f) ∈ tblRows →
    s.coreNext p → p.op = 1 → p.tsel = tsel → p.arg = tidx →
    exec (.tbl tsel tidx) s =
      .next { s with tout := f tidx, pend := none, status := { s.status with busy := false } }

/-- R183: EXPK completes, for each key length: both stores, KINFO and KVALID are written, BUSY and PEND are cleared,
nothing else changes. -/
def Obligations.ExpkCompletionWritesTheSchedules : Prop :=
  ∀ (s : State) (p : Pending) (len : Byte), len = 4 ∨ len = 6 ∨ len = 8 →
    s.coreNext p → p.op = 2 → p.tsel = 0 → p.arg = len →
    ∃ e d, expandKey (p.keyl.toList.take len.toNat) = .ok (e, d) ∧
      exec (.expk len) s =
        .next { s with
          esched := e.flatten
          dsched := d.flatten
          kinfo := { nk := BitVec.ofNat 4 len.toNat, nr := BitVec.ofNat 4 (len.toNat + 6) }
          pend := none
          status := { s.status with busy := false, kvalid := true } }

/-- R184: ENC completes: DOUT takes the encryption of the latched block, BUSY and PEND are cleared, nothing else
changes. -/
def Obligations.EncCompletionWritesDout : Prop :=
  ∀ (s : State) (p : Pending), s.kinfo.nr = 10 ∨ s.kinfo.nr = 12 ∨ s.kinfo.nr = 14 →
    s.coreNext p → p.op = 3 → p.tsel = 0 → p.arg = 4 →
    exec (.enc 4) s =
      .next { s with
        dout := encryptBlock p.dinl s.esched s.kinfo.nr.toNat
        pend := none
        status := { s.status with busy := false } }

/-- R185: DEC completes: DOUT takes the decryption of the latched block, BUSY and PEND are cleared, nothing else
changes. -/
def Obligations.DecCompletionWritesDout : Prop :=
  ∀ (s : State) (p : Pending), s.kinfo.nr = 10 ∨ s.kinfo.nr = 12 ∨ s.kinfo.nr = 14 →
    s.coreNext p → p.op = 4 → p.tsel = 0 → p.arg = 4 →
    exec (.dec 4) s =
      .next { s with
        dout := decryptBlock p.dinl s.dsched s.kinfo.nr.toNat
        pend := none
        status := { s.status with busy := false } }

/-- R32: what the host writes to KEY and DIN after the issue does not affect the pending command. -/
def Obligations.PendingCommandIgnoresKeyAndDin : Prop :=
  ∀ (s : State) (p : Pending) (k : KeyRegs) (d : Block), s.coreNext p →
    step { s with key := k, din := d } = mapNext (fun t => { t with key := k, din := d }) (step s)

/-- R183, D24: EXPK does not read the latched key words from LEN on. -/
def Obligations.ExpkIgnoresTheOtherKeyWords : Prop :=
  ∀ (s : State) (p : Pending) (k : KeyRegs), s.coreNext p → p.op = 2 →
    (∀ i : Fin 8, i.val < p.arg.toNat → k.get i = p.keyl.get i) →
    mapNext (fun t => { t with pend := none }) (step { s with pend := some { p with keyl := k } }) =
      mapNext (fun t => { t with pend := none }) (step s)

/-- The model's own choice (log entry 2), for three kinds of completion that no run reaches: the core's step is a named
fault when PEND's fields name no command, when they name an EXPK of another length than 4, 6 or 8, and when an ENC or DEC
completes while KINFO.NR is no round count. -/
def Obligations.CompletionFaultsOnNoCommandNoKeyLengthOrNoRoundCount : Prop :=
  ∀ (s : State) (p : Pending), s.coreNext p →
    (∀ e, decodeFields p.op p.tsel p.arg = .error e → step s = .fault .pendingIllegal) ∧
    (p.op = 2 → p.tsel = 0 → p.arg ≠ 4 → p.arg ≠ 6 → p.arg ≠ 8 → step s = .fault .pendingIllegal) ∧
    ((p.op = 3 ∨ p.op = 4) → p.tsel = 0 → s.kinfo.nr ≠ 10 → s.kinfo.nr ≠ 12 → s.kinfo.nr ≠ 14 →
      step s = .fault .scheduleIllegal)

/-! ### Steps -/

/-- R20, R53: the host's write of a command word runs exactly the command that the word decodes to; the step adds the
host's own advance, and the count of host steps that a pending command still waits for. -/
def Obligations.StepRunsTheDecodedCommand : Prop :=
  ∀ (s : State) (v : Word) (i : Instr), s.hostNext (.write 0x000 4 v) → decode v = .ok i →
    step s = mapNext
      (fun t => { t with hpc := s.hpc + 1, wait := if s.pend.isSome then t.wait - 1 else t.wait }) (exec i s)

/-- R186: the core's step runs exactly the command whose fields PEND holds. -/
def Obligations.StepCompletesThePendingCommand : Prop :=
  ∀ (s : State) (p : Pending) (i : Instr), s.coreNext p → decodeFields p.op p.tsel p.arg = .ok i → step s = exec i s

/-- R214, R231: when nothing is pending and the host has no next step, the machine holds its state. -/
def Obligations.IdleMachineHoldsItsState : Prop :=
  ∀ s : State, s.pend = none → s.nextStmt = none → step s = .next s

/-- The model's loader (log entry 4): after a command word is placed for fetching, from any state, the next step is the
host's write of exactly that word to CMD. -/
def Obligations.PlacedWordIsTheNextStep : Prop :=
  ∀ (s : State) (w : Nat), w < 2 ^ 32 → (s.withFetchWord 32 w).hostNext (.write 0x000 4 (BitVec.ofNat 32 w))

/-- R220: reset, at any point, a pending command included: every register of the block takes its reset value and the
pending command is discarded. That the host keeps its program and what it has read and goes on by one position is the
model's inference (log entry 11). -/
def Obligations.ResetClearsTheWholeRecord : Prop :=
  ∀ s : State, s.hostNext .reset → ∃ t, step s = .next t ∧
    (∀ i, t.key.get i = 0) ∧ (∀ i, t.din.get i = 0) ∧ (∀ i, t.dout.get i = 0) ∧ t.tout = 0 ∧
    (∀ i, t.esched.get i = 0) ∧ (∀ i, t.dsched.get i = 0) ∧
    t.status = { busy := false, kvalid := false, ovr := false, err := .none } ∧ t.kinfo = { nk := 0, nr := 0 } ∧
    t.pend = none ∧ memRead 0x004 t = 0 ∧ memRead 0x008 t = 0 ∧
    observe { t with reads := [] } = observe State.reset ∧
    t.prog = s.prog ∧ t.hpc = s.hpc + 1 ∧ t.reads = s.reads

/-- R52, R54, R56: what every offset of the window reads as. -/
def Obligations.ReadsFollowTheRegisterMap : Prop :=
  ∀ s : State,
    memRead 0x000 s = 0 ∧
    memRead 0x004 s = (errCode s.status.err).setWidth 32 <<< 4 ||| (BitVec.ofBool s.status.ovr).setWidth 32 <<< 2 |||
      (BitVec.ofBool s.status.kvalid).setWidth 32 <<< 1 ||| (BitVec.ofBool s.status.busy).setWidth 32 ∧
    memRead 0x008 s = s.kinfo.nr.setWidth 32 <<< 8 ||| s.kinfo.nk.setWidth 32 ∧
    memRead 0x00C s = s.tout ∧
    (∀ (i : Nat) (_ : i < 8), memRead (0x010 + 4 * i) s = s.key[i]) ∧
    (∀ (i : Nat) (_ : i < 4), memRead (0x030 + 4 * i) s = s.din[i] ∧ memRead (0x040 + 4 * i) s = s.dout[i]) ∧
    (∀ (i : Nat) (_ : i < 60), memRead (0x100 + 4 * i) s = s.esched[i] ∧ memRead (0x200 + 4 * i) s = s.dsched[i]) ∧
    (∀ off, (0x050 ≤ off ∧ off ≤ 0x0FC) ∨ (0x1F0 ≤ off ∧ off ≤ 0x1FC) ∨ 0x2F0 ≤ off → memRead off s = 0)

/-- R28, R200: the codes of ERR, and the reserved bits of STATUS and KINFO, which read 0. -/
def Obligations.ReservedBitsReadZero : Prop :=
  ∀ s : State,
    (errCode .none = 0 ∧ errCode .invalidKeySize = 1 ∧ errCode .invalidBlockSize = 2 ∧ errCode .illegalCommand = 3 ∧
      errCode .noSchedule = 4) ∧
    memRead 0x004 s &&& 0xFFFFFF08 = 0 ∧ memRead 0x008 s &&& 0xFFFFF0F0 = 0

/-- R57: a host read returns the register's value and changes nothing of the block. -/
def Obligations.ReadsHaveNoSideEffect : Prop :=
  ∀ (s : State) (off name : Nat), s.hostNext (.read off 4 name) → off % 4 = 0 → off ≤ 0xFFC →
    step s = .next { s with
      reads := (name, memRead off s) :: s.reads
      hpc := s.hpc + 1
      wait := if s.pend.isSome then s.wait - 1 else s.wait }

/-- R53, R55: what a write at each offset of the window does. KEY and DIN store the value in the one register named, a
write to CMD issues it, and every other write, to a read-only register or a reserved offset, has no effect. -/
def Obligations.WritesFollowTheRegisterMap : Prop :=
  ∀ (s : State) (v : Word),
    memWrite 0x000 v s = commandWrite v s ∧
    (∀ (i : Nat) (_ : i < 8), memWrite (0x010 + 4 * i) v s = .next { s with key := s.key.set i v }) ∧
    (∀ (i : Nat) (_ : i < 4), memWrite (0x030 + 4 * i) v s = .next { s with din := s.din.set i v }) ∧
    (∀ off, off % 4 = 0 → off ≠ 0x000 → ¬ (0x010 ≤ off ∧ off ≤ 0x02C) → ¬ (0x030 ≤ off ∧ off ≤ 0x03C) →
      memWrite off v s = .next s)

/-- R51: the transactions that are refused, exactly, and that nothing else is. -/
def Obligations.OnlyBadAccessesAreRefused : Prop :=
  ∀ (s : State) (r : Refusal), step s = .refused r ↔
    ∃ off n, r = .badAccess off n ∧ ¬ (n = 4 ∧ off % 4 = 0 ∧ off ≤ 0xFFC) ∧
      ((∃ name, s.hostNext (.read off n name)) ∨ ∃ v, s.hostNext (.write off n v))

/-- R79: BNZ moves the host, by the value its last read of the name returned, and changes nothing of the block. -/
def Obligations.BranchMovesOnlyTheHost : Prop :=
  ∀ (s : State) (name : Nat) (mask v : Word) (target : Nat), s.hostNext (.bnz name mask target) →
    s.reads.lookup name = some v →
    step s = .next { s with
      hpc := if v &&& mask ≠ 0 then target else s.hpc + 1
      wait := if s.pend.isSome then s.wait - 1 else s.wait }

/-! ### Whole-machine rules -/

/-- The invariant at reset: R21, R29, R31. -/
def Obligations.ResetMeetsTheInvariant : Prop := State.reset.Inv

/-- R21, R29, R31, R187: every step keeps the invariant, from every state that meets it. -/
def Obligations.StepKeepsTheInvariant : Prop :=
  ∀ s t : State, s.Inv → step s = .next t → t.Inv

/-- R186, R207: from a state that meets the invariant no step is a fault: a completion cannot fail, and the block has
no stuck state. -/
def Obligations.InvariantStatesStepSafely : Prop :=
  ∀ s : State, s.Inv → stepSafe s

/-- R25, R26, R31: who writes the results. DOUT changes only when ENC or DEC completes, TOUT only when TBL does, the
stores only when EXPK does, and all of them at reset. -/
def Obligations.ResultsChangeOnlyAtTheirCompletion : Prop :=
  ∀ s t : State, step s = .next t → ¬ s.hostNext .reset →
    (t.dout ≠ s.dout → ∃ p, s.coreNext p ∧ (p.op = 3 ∨ p.op = 4)) ∧
    (t.tout ≠ s.tout → ∃ p, s.coreNext p ∧ p.op = 1) ∧
    (t.esched ≠ s.esched ∨ t.dsched ≠ s.dsched ∨ t.kinfo ≠ s.kinfo → ∃ p, s.coreNext p ∧ p.op = 2)

/-- R23, R24: no command writes KEY or DIN; only a host write to one of their offsets does, or reset. -/
def Obligations.OnlyTheHostWritesKeyAndDin : Prop :=
  ∀ s t : State, step s = .next t → ¬ s.hostNext .reset →
    (t.key ≠ s.key → ∃ off v, s.hostNext (.write off 4 v) ∧ 0x010 ≤ off ∧ off ≤ 0x02C) ∧
    (t.din ≠ s.din → ∃ off v, s.hostNext (.write off 4 v) ∧ 0x030 ≤ off ∧ off ≤ 0x03C)

/-- R28: what sets and clears each flag of STATUS. -/
def Obligations.FlagsChangeOnlyAtTheirEvents : Prop :=
  ∀ s t : State, step s = .next t →
    (t.status.busy = true → s.status.busy = false → ∃ v i, s.hostNext (.write 0x000 4 v) ∧ decode v = .ok i ∧
      acceptable i s.status.kvalid = true) ∧
    (t.status.busy = false → s.status.busy = true → s.hostNext .reset ∨ ∃ p, s.coreNext p) ∧
    (t.status.kvalid = true → s.status.kvalid = false → ∃ p, s.coreNext p ∧ p.op = 2) ∧
    (t.status.kvalid = false → s.status.kvalid = true → s.hostNext .reset) ∧
    (t.status.ovr = true → s.status.ovr = false → s.status.busy = true ∧ ∃ v, s.hostNext (.write 0x000 4 v)) ∧
    (t.status.ovr = false → s.status.ovr = true →
      s.hostNext .reset ∨ (s.status.busy = false ∧ ∃ v, s.hostNext (.write 0x000 4 v))) ∧
    (t.status.err ≠ s.status.err →
      s.hostNext .reset ∨ (s.status.busy = false ∧ ∃ v, s.hostNext (.write 0x000 4 v)))

/-- R225, R52: between an issue and its completion no host step but reset changes a result, the pending command or the
schedule: reads return the values from before the command. -/
def Obligations.HostStepsKeepThePendingCommand : Prop :=
  ∀ (s t : State) (st : HostStmt), s.Inv → s.pend.isSome = true → s.hostNext st → st ≠ .reset → step s = .next t →
    t.pend = s.pend ∧ t.dout = s.dout ∧ t.tout = s.tout ∧ t.esched = s.esched ∧ t.dsched = s.dsched ∧
    t.kinfo = s.kinfo ∧ t.status.kvalid = s.status.kvalid ∧ t.status.busy = true ∧ t.wait = s.wait - 1

/-- R226, in the model's form of it (log entry 1): a pending command completes, or is discarded by a reset, within
`wait + 1` steps, unless the host's own transaction is refused before. -/
def Obligations.PendingCommandCompletesInTime : Prop :=
  ∀ s : State, s.Inv → s.pend.isSome = true →
    ∃ k ≤ s.wait + 1,
      (∃ t, Sys2Proof.core.run k s = .next t ∧ t.pend = none) ∨ (∃ r, Sys2Proof.core.run k s = .refused r)

/-- R230: the latency of an accepted command is positive and is LATENCY at the command's opcode and at one of the four
round counts: KINFO.NR for TBL, ENC and DEC, and for EXPK the NR that the machine's own completion of it leaves in KINFO.
TIDX, TSEL, KEY and DIN are no arguments of it. The model has no clock: LATENCY is an open parameter (log entry 10). -/
def Obligations.LatencyDependsOnOpcodeAndRounds : Prop :=
  ∀ (i : Instr) (s : State), s.Inv → acceptable i s.status.kvalid = true →
    ∃ n, (n = 0 ∨ n = 10 ∨ n = 12 ∨ n = 14) ∧ commandLatency i s = Config.latency i.op n ∧ 0 < commandLatency i s ∧
      (i.op ≠ 2 → n = s.kinfo.nr.toNat) ∧ (i.op = 3 ∨ i.op = 4 → n ≠ 0) ∧ (i.op = 2 → n = i.arg.toNat + 6) ∧
      (∀ (u t : State) (p : Pending), i.op = 2 → u.coreNext p → p.op = i.op → p.arg = i.arg → step u = .next t →
        t.kinfo.nr.toNat = n)

/-- R53, R55, R56, at the step: the host's write of a word to KEY[i] or DIN[i] stores it there, its write to any other
register but CMD or to a reserved offset stores nothing, and the host is one position further. That one fewer host step
then precedes a pending completion is the model's choice (log entry 1). -/
def Obligations.HostWriteStepStoresTheWord : Prop :=
  ∀ (s : State) (v : Word),
    (∀ (i : Nat) (_ : i < 8), s.hostNext (.write (0x010 + 4 * i) 4 v) →
      step s = .next { s with
        key := s.key.set i v
        hpc := s.hpc + 1
        wait := if s.pend.isSome then s.wait - 1 else s.wait }) ∧
    (∀ (i : Nat) (_ : i < 4), s.hostNext (.write (0x030 + 4 * i) 4 v) →
      step s = .next { s with
        din := s.din.set i v
        hpc := s.hpc + 1
        wait := if s.pend.isSome then s.wait - 1 else s.wait }) ∧
    (∀ off, s.hostNext (.write off 4 v) → off % 4 = 0 → off ≤ 0xFFC → off ≠ 0x000 →
      ¬ (0x010 ≤ off ∧ off ≤ 0x02C) → ¬ (0x030 ≤ off ∧ off ≤ 0x03C) →
      step s = .next { s with
        hpc := s.hpc + 1
        wait := if s.pend.isSome then s.wait - 1 else s.wait })

/-- R229, R181, R186: data decides nothing but data. Two states that differ only in KEY, DIN, DOUT, TOUT, the schedule
stores and the latched key and block step alike: the same fault, the same refusal, or next states that again differ only
in these and in what a read of the host returned. (`wait` and `issues` among what agrees are the model's: log entry 1.) -/
def Obligations.ControlDoesNotDependOnData : Prop :=
  ∀ s u : State, s.control = u.control → s.reads = u.reads →
    mapNext State.control (step s) = mapNext State.control (step u)
end

