-- ==== Sys2Proof/Laws/Arith.lean ====
section
/-! SUPPORT. The small lemmas of the function layer's definitions (spec/40_gf_arithmetic.md, spec/42_key_schedule.md). -/

namespace Sys2Proof.Machine

/-- An element of a vector given by its elements. -/
theorem vector_get_ofFn {α : Type} {n : Nat} (f : Fin n → α) (i : Fin n) : (Vector.ofFn f).get i = f i := by
  simp [Vector.get]; rfl

/-! ### The field unit -/

@[simp] theorem xtime_zero : xtime 0 = 0 := rfl

/-- R101: doubling is linear over ⊕. -/
theorem xtime_xor (a b : Byte) : xtime (a ^^^ b) = xtime a ^^^ xtime b := by
  unfold xtime
  rw [BitVec.getLsbD_xor, BitVec.shiftLeft_xor_distrib]
  cases a.getLsbD 7 <;> cases b.getLsbD 7 <;> simp
  · rw [BitVec.xor_assoc]
  · rw [BitVec.xor_assoc, BitVec.xor_comm (b <<< 1), ← BitVec.xor_assoc]
  · rw [BitVec.xor_assoc, ← BitVec.xor_assoc 27#8, BitVec.xor_comm 27#8, BitVec.xor_assoc (b <<< 1)]; simp

/-- R102: the accumulator of the loop is ⊕-ed to its result. -/
theorem gfMulLoop_acc (n : Nat) (acc a b : Byte) : gfMulLoop n acc a b = acc ^^^ gfMulLoop n 0 a b := by
  induction n generalizing acc a b with
  | zero => simp [gfMulLoop]
  | succ n ih =>
    simp only [gfMulLoop]
    rw [ih, ih (if b.getLsbD 0 = true then 0 ^^^ a else 0)]
    split <;> simp [BitVec.xor_assoc]

/-- R102: the loop is linear in the doubled operand. -/
theorem gfMulLoop_xor (n : Nat) (a a' b : Byte) :
    gfMulLoop n 0 (a ^^^ a') b = gfMulLoop n 0 a b ^^^ gfMulLoop n 0 a' b := by
  induction n generalizing a a' b with
  | zero => simp [gfMulLoop]
  | succ n ih =>
    simp only [gfMulLoop]
    rw [gfMulLoop_acc, gfMulLoop_acc n (if b.getLsbD 0 = true then 0 ^^^ a else 0),
      gfMulLoop_acc n (if b.getLsbD 0 = true then 0 ^^^ a' else 0), xtime_xor, ih]
    cases b.getLsbD 0
    · simp
    · simp; ac_rfl

/-- R102: multiplication distributes over ⊕ in its first operand. -/
theorem gfMul_xor_left (x x' y : Byte) : gfMul (x ^^^ x') y = gfMul x y ^^^ gfMul x' y := gfMulLoop_xor 8 x x' y

/-! ### The key scheduler -/

theorem extendWords_length (nk n : Nat) (w : List Word) : (extendWords nk n w).length = w.length + n := by
  induction n generalizing w with
  | zero => simp [extendWords]
  | succ n ih => rw [extendWords, ih, List.length_append]; simp; omega

/-- R133: words already made are never changed. -/
theorem extendWords_getD (nk n i : Nat) (w : List Word) (h : i < w.length) :
    (extendWords nk n w).getD i 0 = w.getD i 0 := by
  induction n generalizing w with
  | zero => simp [extendWords]
  | succ n ih =>
    rw [extendWords, ih _ (by simp; omega)]
    simp [List.getD_eq_getElem?_getD, List.getElem?_append_left h]

@[simp] theorem Schedule.flatten_get (sch : Schedule) (i : Fin 60) : sch.flatten.get i = sch.words.getD i.val 0 :=
  vector_get_ofFn _ i

@[simp] theorem encSched_middle_length (nr : Nat) (w : List Word) : (encSched nr w).middle.length = nr - 1 := by
  simp [encSched]

@[simp] theorem decSched_middle_length (nr : Nat) (w : List Word) : (decSched nr w).middle.length = nr - 1 := by
  simp [decSched]

/-- R139: what expandKey answers with is the two schedules of one word sequence. -/
theorem expandKey_ok {key : List Word} {e d : Schedule} (h : expandKey key = .ok (e, d)) :
    keyLenLegal key.length = true ∧ e = encSched (key.length + 6) (expandWords key) ∧
      d = decSched (key.length + 6) (expandWords key) := by
  unfold expandKey at h
  split at h
  · next hk => cases h; exact ⟨hk, rfl, rfl⟩
  · cases h

/-! ### The round engine -/

/-- R161: folding a round over the rounds 1 to n is any sequence of blocks that the round leads from one to the next. -/
theorem foldl_rounds {f : Block → Nat → Block} {b : Nat → Block} (n : Nat)
    (h : ∀ r, 1 ≤ r → r ≤ n → b r = f (b (r - 1)) r) :
    (List.range n).foldl (fun s r => f s (r + 1)) (b 0) = b n := by
  induction n with
  | zero => rfl
  | succ n ih =>
    rw [List.range_succ, List.foldl_append, ih fun r h1 h2 => h r h1 (by omega)]
    exact (h (n + 1) (by omega) (by omega)).symm

@[simp] theorem addRoundKey_get (k s : Block) (j : Fin 4) : (addRoundKey k s).get j = s.get j ^^^ k.get j :=
  vector_get_ofFn _ j

@[simp] theorem sk_get (x : Store) (r : Nat) (c : Fin 4) : (sk x r).get c = x.toList.getD (4 * r + c.val) 0 :=
  vector_get_ofFn _ c

end Sys2Proof.Machine
end

