-- ==== Sys2Proof/Laws/Encoding.lean ====
section
/-! SUPPORT. The fields of a command word (spec/30_encoding.md R70): what each reads of an encoded word, and that they
make up the whole of a word whose RSVD is zero. -/

namespace Sys2Proof

variable (op tsel : BitVec 4) (arg : Byte)

/-- R78: the word that the fields OP, TSEL and ARG assemble to. -/
abbrev fieldsWord : Word := (arg.setWidth 32 <<< 8) ||| (tsel.setWidth 32 <<< 4) ||| op.setWidth 32

@[simp] theorem cmdOp_fieldsWord : cmdOp (fieldsWord op tsel arg) = op := by
  ext k hk
  have : k = 0 ∨ k = 1 ∨ k = 2 ∨ k = 3 := by omega
  rcases this with rfl | rfl | rfl | rfl <;> simp [cmdOp]

@[simp] theorem cmdTsel_fieldsWord : cmdTsel (fieldsWord op tsel arg) = tsel := by
  ext k hk
  have : k = 0 ∨ k = 1 ∨ k = 2 ∨ k = 3 := by omega
  rcases this with rfl | rfl | rfl | rfl <;> simp [cmdTsel]

@[simp] theorem cmdArg_fieldsWord : cmdArg (fieldsWord op tsel arg) = arg := by
  ext k hk
  have : k = 0 ∨ k = 1 ∨ k = 2 ∨ k = 3 ∨ k = 4 ∨ k = 5 ∨ k = 6 ∨ k = 7 := by omega
  rcases this with rfl | rfl | rfl | rfl | rfl | rfl | rfl | rfl <;> simp [cmdArg]

@[simp] theorem cmdRsvd_fieldsWord : cmdRsvd (fieldsWord op tsel arg) = 0 := by
  ext k hk
  simp [cmdRsvd]
  constructorm* _ ∧ _ <;> intros <;> exact BitVec.getLsbD_of_ge _ _ (by omega)

/-- A word with RSVD zero is made up of its three fields. -/
theorem fieldsWord_of_fields (w : Word) (h : cmdRsvd w = 0) : fieldsWord (cmdOp w) (cmdTsel w) (cmdArg w) = w := by
  ext k hk
  have high : 16 ≤ k → w.getLsbD k = false := fun hk' => by
    have := congrArg (·.getLsbD (k - 16)) h
    simpa [cmdRsvd, show k - 16 < 16 by omega, show 16 + (k - 16) = k by omega] using this
  simp only [fieldsWord, BitVec.getElem_or, BitVec.getElem_shiftLeft, BitVec.getElem_setWidth, cmdArg, cmdTsel, cmdOp,
    BitVec.getLsbD_extractLsb']
  rw [← BitVec.getLsbD_eq_getElem]
  have : k < 4 ∨ (4 ≤ k ∧ k < 8) ∨ (8 ≤ k ∧ k < 16) ∨ 16 ≤ k := by omega
  rcases this with h | h | h | h
  · simp [h]; omega
  · simp [h, show ¬ k < 4 by omega, show k - 4 < 4 by omega, show 4 + (k - 4) = k by omega]
  · simp [show ¬ k < 4 by omega, show ¬ k < 8 by omega, show ¬ k - 4 < 4 by omega, show k - 8 < 8 by omega,
      show 8 + (k - 8) = k by omega]
  · simp [high h, show ¬ k < 4 by omega, show ¬ k < 8 by omega, show ¬ k - 4 < 4 by omega, show ¬ k - 8 < 8 by omega]

theorem encode_eq_fieldsWord (i : Instr) : encode i = fieldsWord i.op i.tsel i.arg := rfl

/-- R75: the decoder reads the four fields and nothing else of a word. -/
theorem decode_of_rsvd_zero (w : Word) (h : cmdRsvd w = 0) :
    decode w = decodeFields (cmdOp w) (cmdTsel w) (cmdArg w) := if_neg (not_not.2 h)

/-- R75: a word with some RSVD bit set is illegal. -/
theorem decode_of_rsvd_ne_zero (w : Word) (h : cmdRsvd w ≠ 0) : decode w = .error .reservedBits :=
  if_pos h

/-- Everything the field decoder can answer with a command. -/
theorem decodeFields_cases {op tsel : BitVec 4} {arg : Byte} {i : Instr} (h : decodeFields op tsel arg = .ok i) :
    (op = 1 ∧ tsel ≤ 9 ∧ i = .tbl tsel arg) ∨ (op = 2 ∧ tsel = 0 ∧ i = .expk arg) ∨
    (op = 3 ∧ tsel = 0 ∧ i = .enc arg) ∨ (op = 4 ∧ tsel = 0 ∧ i = .dec arg) := by
  unfold decodeFields at h
  split at h
  · split at h
    · cases h; exact .inl ⟨‹_›, ‹_›, rfl⟩
    · cases h
  · split at h
    · split at h
      · cases h; exact .inr (.inl ⟨‹_›, ‹_›, rfl⟩)
      · cases h
    · split at h
      · split at h
        · cases h; exact .inr (.inr (.inl ⟨‹_›, ‹_›, rfl⟩))
        · cases h
      · split at h
        · split at h
          · cases h; exact .inr (.inr (.inr ⟨‹_›, ‹_›, rfl⟩))
          · cases h
        · cases h

/-- A command that the field decoder gives has the fields it was read from. -/
theorem fields_of_decodeFields {op tsel : BitVec 4} {arg : Byte} {i : Instr} (h : decodeFields op tsel arg = .ok i) :
    i.op = op ∧ i.tsel = tsel ∧ i.arg = arg := by
  rcases decodeFields_cases h with ⟨rfl, -, rfl⟩ | ⟨rfl, rfl, rfl⟩ | ⟨rfl, rfl, rfl⟩ | ⟨rfl, rfl, rfl⟩ <;>
    exact ⟨rfl, rfl, rfl⟩

end Sys2Proof
end

