-- ==== Sys2Proof/Laws/State.lean ====
section
/-! SUPPORT. One lemma per field for each operation that updates the state, so that no proof unfolds a record
update. -/

namespace Sys2Proof.Machine

variable (s : State)

/-! `overrun` (R187) -/

@[simp] theorem overrun_key : (overrun s).key = s.key := rfl
@[simp] theorem overrun_din : (overrun s).din = s.din := rfl
@[simp] theorem overrun_dout : (overrun s).dout = s.dout := rfl
@[simp] theorem overrun_tout : (overrun s).tout = s.tout := rfl
@[simp] theorem overrun_esched : (overrun s).esched = s.esched := rfl
@[simp] theorem overrun_dsched : (overrun s).dsched = s.dsched := rfl
@[simp] theorem overrun_status : (overrun s).status = flagsOverrun s.status := rfl
@[simp] theorem overrun_kinfo : (overrun s).kinfo = s.kinfo := rfl
@[simp] theorem overrun_pend : (overrun s).pend = s.pend := rfl
@[simp] theorem overrun_prog : (overrun s).prog = s.prog := rfl
@[simp] theorem overrun_hpc : (overrun s).hpc = s.hpc := rfl
@[simp] theorem overrun_reads : (overrun s).reads = s.reads := rfl
@[simp] theorem overrun_wait : (overrun s).wait = s.wait := rfl
@[simp] theorem overrun_issues : (overrun s).issues = s.issues := rfl

/-! `raiseError` (R202) -/

@[simp] theorem raiseError_key (e : ErrCode) : (raiseError e s).key = s.key := rfl
@[simp] theorem raiseError_din (e : ErrCode) : (raiseError e s).din = s.din := rfl
@[simp] theorem raiseError_dout (e : ErrCode) : (raiseError e s).dout = s.dout := rfl
@[simp] theorem raiseError_tout (e : ErrCode) : (raiseError e s).tout = s.tout := rfl
@[simp] theorem raiseError_esched (e : ErrCode) : (raiseError e s).esched = s.esched := rfl
@[simp] theorem raiseError_dsched (e : ErrCode) : (raiseError e s).dsched = s.dsched := rfl
@[simp] theorem raiseError_status (e : ErrCode) : (raiseError e s).status = flagsRejected e s.status := rfl
@[simp] theorem raiseError_kinfo (e : ErrCode) : (raiseError e s).kinfo = s.kinfo := rfl
@[simp] theorem raiseError_pend (e : ErrCode) : (raiseError e s).pend = s.pend := rfl
@[simp] theorem raiseError_prog (e : ErrCode) : (raiseError e s).prog = s.prog := rfl
@[simp] theorem raiseError_hpc (e : ErrCode) : (raiseError e s).hpc = s.hpc := rfl
@[simp] theorem raiseError_reads (e : ErrCode) : (raiseError e s).reads = s.reads := rfl
@[simp] theorem raiseError_wait (e : ErrCode) : (raiseError e s).wait = s.wait := rfl
@[simp] theorem raiseError_issues (e : ErrCode) : (raiseError e s).issues = s.issues := rfl

/-! `accept` (R181) -/

@[simp] theorem accept_key (i : Instr) : (accept i s).key = s.key := rfl
@[simp] theorem accept_din (i : Instr) : (accept i s).din = s.din := rfl
@[simp] theorem accept_dout (i : Instr) : (accept i s).dout = s.dout := rfl
@[simp] theorem accept_tout (i : Instr) : (accept i s).tout = s.tout := rfl
@[simp] theorem accept_esched (i : Instr) : (accept i s).esched = s.esched := rfl
@[simp] theorem accept_dsched (i : Instr) : (accept i s).dsched = s.dsched := rfl
@[simp] theorem accept_status (i : Instr) : (accept i s).status = flagsAccepted s.status := rfl
@[simp] theorem accept_kinfo (i : Instr) : (accept i s).kinfo = s.kinfo := rfl
@[simp] theorem accept_pend (i : Instr) : (accept i s).pend = some { op := i.op, tsel := i.tsel, arg := i.arg, keyl := s.key, dinl := s.din } := rfl
@[simp] theorem accept_prog (i : Instr) : (accept i s).prog = s.prog := rfl
@[simp] theorem accept_hpc (i : Instr) : (accept i s).hpc = s.hpc := rfl
@[simp] theorem accept_reads (i : Instr) : (accept i s).reads = s.reads := rfl
@[simp] theorem accept_wait (i : Instr) : (accept i s).wait = Config.completionDelay s.issues := rfl
@[simp] theorem accept_issues (i : Instr) : (accept i s).issues = s.issues + 1 := rfl

/-! `finish` (R186) -/

@[simp] theorem finish_key : (finish s).key = s.key := rfl
@[simp] theorem finish_din : (finish s).din = s.din := rfl
@[simp] theorem finish_dout : (finish s).dout = s.dout := rfl
@[simp] theorem finish_tout : (finish s).tout = s.tout := rfl
@[simp] theorem finish_esched : (finish s).esched = s.esched := rfl
@[simp] theorem finish_dsched : (finish s).dsched = s.dsched := rfl
@[simp] theorem finish_status : (finish s).status = flagsCompleted s.status := rfl
@[simp] theorem finish_kinfo : (finish s).kinfo = s.kinfo := rfl
@[simp] theorem finish_pend : (finish s).pend = none := rfl
@[simp] theorem finish_prog : (finish s).prog = s.prog := rfl
@[simp] theorem finish_hpc : (finish s).hpc = s.hpc := rfl
@[simp] theorem finish_reads : (finish s).reads = s.reads := rfl
@[simp] theorem finish_wait : (finish s).wait = s.wait := rfl
@[simp] theorem finish_issues : (finish s).issues = s.issues := rfl

/-! `finishExpand` (R183) -/

@[simp] theorem finishExpand_key (nk : Byte) : (finishExpand nk s).key = s.key := rfl
@[simp] theorem finishExpand_din (nk : Byte) : (finishExpand nk s).din = s.din := rfl
@[simp] theorem finishExpand_dout (nk : Byte) : (finishExpand nk s).dout = s.dout := rfl
@[simp] theorem finishExpand_tout (nk : Byte) : (finishExpand nk s).tout = s.tout := rfl
@[simp] theorem finishExpand_esched (nk : Byte) : (finishExpand nk s).esched = s.esched := rfl
@[simp] theorem finishExpand_dsched (nk : Byte) : (finishExpand nk s).dsched = s.dsched := rfl
@[simp] theorem finishExpand_status (nk : Byte) : (finishExpand nk s).status = flagsExpanded s.status := rfl
@[simp] theorem finishExpand_kinfo (nk : Byte) : (finishExpand nk s).kinfo = { nk := nk.setWidth 4, nr := nk.setWidth 4 + 6 } := rfl
@[simp] theorem finishExpand_pend (nk : Byte) : (finishExpand nk s).pend = none := rfl
@[simp] theorem finishExpand_prog (nk : Byte) : (finishExpand nk s).prog = s.prog := rfl
@[simp] theorem finishExpand_hpc (nk : Byte) : (finishExpand nk s).hpc = s.hpc := rfl
@[simp] theorem finishExpand_reads (nk : Byte) : (finishExpand nk s).reads = s.reads := rfl
@[simp] theorem finishExpand_wait (nk : Byte) : (finishExpand nk s).wait = s.wait := rfl
@[simp] theorem finishExpand_issues (nk : Byte) : (finishExpand nk s).issues = s.issues := rfl

/-! `resetInput` (R220) -/

@[simp] theorem resetInput_key : (resetInput s).key = State.reset.key := rfl
@[simp] theorem resetInput_din : (resetInput s).din = State.reset.din := rfl
@[simp] theorem resetInput_dout : (resetInput s).dout = State.reset.dout := rfl
@[simp] theorem resetInput_tout : (resetInput s).tout = State.reset.tout := rfl
@[simp] theorem resetInput_esched : (resetInput s).esched = State.reset.esched := rfl
@[simp] theorem resetInput_dsched : (resetInput s).dsched = State.reset.dsched := rfl
@[simp] theorem resetInput_status : (resetInput s).status = State.reset.status := rfl
@[simp] theorem resetInput_kinfo : (resetInput s).kinfo = State.reset.kinfo := rfl
@[simp] theorem resetInput_pend : (resetInput s).pend = State.reset.pend := rfl
@[simp] theorem resetInput_prog : (resetInput s).prog = s.prog := rfl
@[simp] theorem resetInput_hpc : (resetInput s).hpc = s.hpc := rfl
@[simp] theorem resetInput_reads : (resetInput s).reads = s.reads := rfl
@[simp] theorem resetInput_wait : (resetInput s).wait = s.wait := rfl
@[simp] theorem resetInput_issues : (resetInput s).issues = s.issues := rfl

/-! `afterHost` -/

@[simp] theorem afterHost_key (pc : Nat) (t : State) : (afterHost s pc t).key = t.key := rfl
@[simp] theorem afterHost_din (pc : Nat) (t : State) : (afterHost s pc t).din = t.din := rfl
@[simp] theorem afterHost_dout (pc : Nat) (t : State) : (afterHost s pc t).dout = t.dout := rfl
@[simp] theorem afterHost_tout (pc : Nat) (t : State) : (afterHost s pc t).tout = t.tout := rfl
@[simp] theorem afterHost_esched (pc : Nat) (t : State) : (afterHost s pc t).esched = t.esched := rfl
@[simp] theorem afterHost_dsched (pc : Nat) (t : State) : (afterHost s pc t).dsched = t.dsched := rfl
@[simp] theorem afterHost_status (pc : Nat) (t : State) : (afterHost s pc t).status = t.status := rfl
@[simp] theorem afterHost_kinfo (pc : Nat) (t : State) : (afterHost s pc t).kinfo = t.kinfo := rfl
@[simp] theorem afterHost_pend (pc : Nat) (t : State) : (afterHost s pc t).pend = t.pend := rfl
@[simp] theorem afterHost_prog (pc : Nat) (t : State) : (afterHost s pc t).prog = t.prog := rfl
@[simp] theorem afterHost_hpc (pc : Nat) (t : State) : (afterHost s pc t).hpc = pc := rfl
@[simp] theorem afterHost_reads (pc : Nat) (t : State) : (afterHost s pc t).reads = t.reads := rfl
@[simp] theorem afterHost_wait (pc : Nat) (t : State) : (afterHost s pc t).wait = if s.pend.isSome then t.wait - 1 else t.wait := rfl
@[simp] theorem afterHost_issues (pc : Nat) (t : State) : (afterHost s pc t).issues = t.issues := rfl

/-! `writeReg` (R53): of all the fields only KEY and DIN can change. -/

@[simp] theorem writeReg_dout (r : Reg) (v : Word) : (writeReg r v s).dout = s.dout := by cases r <;> rfl
@[simp] theorem writeReg_tout (r : Reg) (v : Word) : (writeReg r v s).tout = s.tout := by cases r <;> rfl
@[simp] theorem writeReg_esched (r : Reg) (v : Word) : (writeReg r v s).esched = s.esched := by cases r <;> rfl
@[simp] theorem writeReg_dsched (r : Reg) (v : Word) : (writeReg r v s).dsched = s.dsched := by cases r <;> rfl
@[simp] theorem writeReg_status (r : Reg) (v : Word) : (writeReg r v s).status = s.status := by cases r <;> rfl
@[simp] theorem writeReg_kinfo (r : Reg) (v : Word) : (writeReg r v s).kinfo = s.kinfo := by cases r <;> rfl
@[simp] theorem writeReg_pend (r : Reg) (v : Word) : (writeReg r v s).pend = s.pend := by cases r <;> rfl
@[simp] theorem writeReg_prog (r : Reg) (v : Word) : (writeReg r v s).prog = s.prog := by cases r <;> rfl
@[simp] theorem writeReg_hpc (r : Reg) (v : Word) : (writeReg r v s).hpc = s.hpc := by cases r <;> rfl
@[simp] theorem writeReg_reads (r : Reg) (v : Word) : (writeReg r v s).reads = s.reads := by cases r <;> rfl
@[simp] theorem writeReg_wait (r : Reg) (v : Word) : (writeReg r v s).wait = s.wait := by cases r <;> rfl
@[simp] theorem writeReg_issues (r : Reg) (v : Word) : (writeReg r v s).issues = s.issues := by cases r <;> rfl
@[simp] theorem writeReg_key (i : Fin 8) (v : Word) : (writeReg (.key i) v s).key = s.key.set i.val v := rfl
@[simp] theorem writeReg_din (i : Fin 4) (v : Word) : (writeReg (.din i) v s).din = s.din.set i.val v := rfl

/-! The flags (R34). -/

@[simp] theorem flagsOverrun_busy (st : Status) : (flagsOverrun st).busy = st.busy := rfl
@[simp] theorem flagsOverrun_kvalid (st : Status) : (flagsOverrun st).kvalid = st.kvalid := rfl
@[simp] theorem flagsOverrun_ovr (st : Status) : (flagsOverrun st).ovr = true := rfl
@[simp] theorem flagsOverrun_err (st : Status) : (flagsOverrun st).err = st.err := rfl
@[simp] theorem flagsRejected_busy (e : ErrCode) (st : Status) : (flagsRejected e st).busy = st.busy := rfl
@[simp] theorem flagsRejected_kvalid (e : ErrCode) (st : Status) : (flagsRejected e st).kvalid = st.kvalid := rfl
@[simp] theorem flagsRejected_ovr (e : ErrCode) (st : Status) : (flagsRejected e st).ovr = false := rfl
@[simp] theorem flagsRejected_err (e : ErrCode) (st : Status) : (flagsRejected e st).err = e := rfl
@[simp] theorem flagsAccepted_busy (st : Status) : (flagsAccepted st).busy = true := rfl
@[simp] theorem flagsAccepted_kvalid (st : Status) : (flagsAccepted st).kvalid = st.kvalid := rfl
@[simp] theorem flagsAccepted_ovr (st : Status) : (flagsAccepted st).ovr = false := rfl
@[simp] theorem flagsAccepted_err (st : Status) : (flagsAccepted st).err = .none := rfl
@[simp] theorem flagsCompleted_busy (st : Status) : (flagsCompleted st).busy = false := rfl
@[simp] theorem flagsCompleted_kvalid (st : Status) : (flagsCompleted st).kvalid = st.kvalid := rfl
@[simp] theorem flagsCompleted_ovr (st : Status) : (flagsCompleted st).ovr = st.ovr := rfl
@[simp] theorem flagsCompleted_err (st : Status) : (flagsCompleted st).err = st.err := rfl
@[simp] theorem flagsExpanded_busy (st : Status) : (flagsExpanded st).busy = false := rfl
@[simp] theorem flagsExpanded_kvalid (st : Status) : (flagsExpanded st).kvalid = true := rfl
@[simp] theorem flagsExpanded_ovr (st : Status) : (flagsExpanded st).ovr = st.ovr := rfl
@[simp] theorem flagsExpanded_err (st : Status) : (flagsExpanded st).err = st.err := rfl

end Sys2Proof.Machine
end

