-- ==== Sys2Proof/Laws/Ops.lean ====
section
/-! SUPPORT. One lemma for each shared operation that says everything it can do, and one for each meaning and for the
step. -/

namespace Sys2Proof.Machine

variable {s t : State} {p : Pending}

/-! ### Whose step is next -/

theorem completing_eq_none (h : s.coreTurn = false) : s.completing = none := by simp [State.completing, h]

/-- The core is next exactly when PEND holds a command and its host steps are over. -/
theorem completing_eq_some_iff : s.completing = some p ↔ s.coreNext p := by
  unfold State.completing State.coreNext
  constructor
  · intro h
    split at h
    · next hc => exact ⟨h, by simpa [State.coreTurn, h] using hc⟩
    · cases h
  · rintro ⟨h, hw⟩
    rcases hw with hw | hw <;> simp [State.coreTurn, h, hw]

theorem coreTurn_of_coreNext (h : s.coreNext p) : s.coreTurn = true := by
  obtain ⟨h, hw⟩ := h
  rcases hw with hw | hw <;> simp [State.coreTurn, h, hw]

theorem coreNext_of_coreTurn (h : s.coreTurn = true) : ∃ p, s.coreNext p := by
  cases hp : s.pend with
  | none => simp [State.coreTurn, hp] at h
  | some p => exact ⟨p, hp, by simpa [State.coreTurn, hp] using h⟩

theorem coreTurn_eq_false_of_pend (h : s.pend = none) : s.coreTurn = false := by simp [State.coreTurn, h]

/-! ### What is not data -/

@[simp] theorem control_status (s : State) : s.control.status = s.status := rfl
@[simp] theorem control_kinfo (s : State) : s.control.kinfo = s.kinfo := rfl
@[simp] theorem control_prog (s : State) : s.control.prog = s.prog := rfl
@[simp] theorem control_hpc (s : State) : s.control.hpc = s.hpc := rfl
@[simp] theorem control_wait (s : State) : s.control.wait = s.wait := rfl
@[simp] theorem control_issues (s : State) : s.control.issues = s.issues := rfl
@[simp] theorem control_pend (s : State) :
    s.control.pend = s.pend.map fun p => { p with keyl := State.reset.key, dinl := State.reset.din } := rfl
@[simp] theorem control_nextStmt (s : State) : s.control.nextStmt = s.nextStmt := rfl
@[simp] theorem control_coreTurn (s : State) : s.control.coreTurn = s.coreTurn := by
  simp [State.coreTurn]

@[simp] theorem control_set_key (s : State) (k : KeyRegs) : ({ s with key := k } : State).control = s.control := rfl
@[simp] theorem control_set_din (s : State) (d : Block) : ({ s with din := d } : State).control = s.control := rfl
@[simp] theorem control_set_reads (s : State) (r : List (Nat × Word)) :
    ({ s with reads := r } : State).control = s.control := rfl
@[simp] theorem control_set_tout (s : State) (w : Word) : ({ s with tout := w } : State).control = s.control := rfl
@[simp] theorem control_set_dout (s : State) (d : Block) : ({ s with dout := d } : State).control = s.control := rfl
@[simp] theorem control_set_stores (s : State) (e d : Store) :
    ({ s with esched := e, dsched := d } : State).control = s.control := rfl

/-- Two states agree on what is not data exactly when they agree on each such field. -/
theorem control_eq_iff {s u : State} : s.control = u.control ↔
    s.status = u.status ∧ s.kinfo = u.kinfo ∧ s.control.pend = u.control.pend ∧ s.prog = u.prog ∧ s.hpc = u.hpc ∧
      s.wait = u.wait ∧ s.issues = u.issues := by
  simp [State.control]

/-- A host step leaves both states the same place and the same count. -/
theorem afterHost_control {s u s' u' : State} (h : s.control = u.control) (h' : s'.control = u'.control) (pc : Nat) :
    (afterHost s pc s').control = (afterHost u pc u').control := by
  have hp : s.pend.isSome = u.pend.isSome := by simpa using congrArg (fun x => x.pend.isSome) h
  rw [control_eq_iff] at h' ⊢
  simp_all

theorem finish_control {s u : State} (h : s.control = u.control) : (finish s).control = (finish u).control := by
  rw [control_eq_iff] at h ⊢
  simp_all

theorem finishExpand_control {s u : State} (h : s.control = u.control) (nk : Byte) :
    (finishExpand nk s).control = (finishExpand nk u).control := by
  rw [control_eq_iff] at h ⊢
  simp_all

/-! ### Issue (R181) -/

/-- Everything an issue can do. -/
theorem issue_cases (v : Except ErrCode Instr) (s : State) :
    (s.status.busy = true ∧ issue v s = overrun s) ∨
    (s.status.busy = false ∧ ∃ e, v = .error e ∧ issue v s = raiseError e s) ∨
    (s.status.busy = false ∧ ∃ i, v = .ok i ∧ issue v s = accept i s) := by
  unfold issue
  cases hb : s.status.busy with
  | true => simp
  | false => cases v <;> simp

/-- An issue does the same to what is not data, whatever the data. -/
theorem issue_control {s u : State} (h : s.control = u.control) (v : Except ErrCode Instr) :
    (issue v s).control = (issue v u).control := by
  have hb : s.status.busy = u.status.busy := by rw [(control_eq_iff.1 h).1]
  rw [control_eq_iff] at h
  unfold issue
  rw [hb]
  split
  · rw [control_eq_iff]; simp_all
  · cases v <;> (rw [control_eq_iff]; simp_all)

/-- What the host's step of each command validates (R181). -/
def verdict (i : Instr) (st : Status) : Except ErrCode Instr :=
  match i with
  | .tbl tsel tidx => validateTbl tsel tidx
  | .expk len => validateExpk len
  | .enc len => validateBlock (.enc len) len st
  | .dec len => validateBlock (.dec len) len st

/-- The host's step of a command is its issue, whichever command it is. -/
theorem exec_host (i : Instr) (h : s.coreTurn = false) : exec i s = .next (issue (verdict i s.status) s) := by
  cases i <;> simp [exec, execTbl, execExpk, execEnc, execDec, completing_eq_none h, verdict]

theorem validateBlock_ok_iff {i j : Instr} {len : Byte} {st : Status} :
    validateBlock i len st = .ok j ↔ j = i ∧ (len == 4 && st.kvalid) = true := by
  unfold validateBlock blockLenLegal
  cases len == 4 <;> cases st.kvalid <;> simp
  exact eq_comm

theorem keyLenLegal_toNat (len : Byte) : keyLenLegal len.toNat = (len == 4 || len == 6 || len == 8) := by
  simp [keyLenLegal, BitVec.toNat_eq, Bool.beq_eq_decide_eq]

/-- Validation accepts a command exactly as `acceptable` says, and then latches that command. -/
theorem verdict_ok_iff {i j : Instr} {st : Status} : verdict i st = .ok j ↔ j = i ∧ acceptable i st.kvalid = true := by
  cases i with
  | tbl tsel tidx =>
    simp only [verdict, validateTbl, acceptable, decide_eq_true_eq]
    split
    · next h => exact ⟨fun e => (by cases e; exact ⟨rfl, h⟩), fun e => by rw [e.1]⟩
    · next h => exact ⟨fun e => (by cases e), fun e => absurd e.2 h⟩
  | expk len =>
    simp only [verdict, validateExpk, acceptable, keyLenLegal_toNat]
    split
    · next h => exact ⟨fun e => (by cases e; exact ⟨rfl, h⟩), fun e => by rw [e.1]⟩
    · next h => exact ⟨fun e => (by cases e), fun e => absurd e.2 h⟩
  | enc len => exact validateBlock_ok_iff
  | dec len => exact validateBlock_ok_iff

/-- Everything a command write can do when the host's step is next (R181, R187). -/
theorem commandWrite_cases (v : Word) (h : s.coreTurn = false) :
    (s.status.busy = true ∧ commandWrite v s = .next (overrun s)) ∨
    (s.status.busy = false ∧ ∃ e, commandWrite v s = .next (raiseError e s)) ∨
    (s.status.busy = false ∧ ∃ i, decode v = .ok i ∧ acceptable i s.status.kvalid = true ∧
      commandWrite v s = .next (accept i s)) := by
  unfold commandWrite
  cases hd : decode v with
  | error e =>
    rcases issue_cases (.error .illegalCommand) s with ⟨hb, h⟩ | ⟨hb, e, -, h⟩ | ⟨-, i, hi, -⟩
    · exact .inl ⟨hb, by rw [h]⟩
    · exact .inr (.inl ⟨hb, e, by rw [h]⟩)
    · cases hi
  | ok i =>
    simp only [exec_host i h]
    rcases issue_cases (verdict i s.status) s with ⟨hb, h⟩ | ⟨hb, e, -, h⟩ | ⟨hb, j, hj, h⟩
    · exact .inl ⟨hb, by rw [h]⟩
    · exact .inr (.inl ⟨hb, e, by rw [h]⟩)
    · obtain ⟨rfl, ha⟩ := verdict_ok_iff.1 hj
      exact .inr (.inr ⟨hb, j, rfl, ha, by rw [h]⟩)

/-! ### Completion (R182 to R186) -/

/-- Everything the core's step of a command can do. -/
theorem exec_core_cases {i : Instr} (hc : s.coreNext p) (h : exec i s = .next t) :
    (∃ tsel tidx T, i = .tbl tsel tidx ∧ tableOfTsel p.tsel = some T ∧
      t = finish { s with tout := tableEntry T p.arg }) ∨
    (∃ len e d, i = .expk len ∧ keyLenLegal p.arg.toNat = true ∧ expandKey (p.keyl.toList.take p.arg.toNat) = .ok (e, d) ∧
      t = finishExpand p.arg { s with esched := e.flatten, dsched := d.flatten }) ∨
    (∃ len, i = .enc len ∧ roundsLegal s.kinfo.nr = true ∧
      t = finish { s with dout := encryptBlock p.dinl s.esched s.kinfo.nr.toNat }) ∨
    (∃ len, i = .dec len ∧ roundsLegal s.kinfo.nr = true ∧
      t = finish { s with dout := decryptBlock p.dinl s.dsched s.kinfo.nr.toNat }) := by
  have hs := completing_eq_some_iff.2 hc
  cases i with
  | tbl tsel tidx =>
    simp only [exec, execTbl, hs] at h
    split at h
    · next T hT => cases h; exact .inl ⟨tsel, tidx, T, rfl, hT, rfl⟩
    · cases h
  | expk len =>
    simp only [exec, execExpk, hs] at h
    split at h
    · next hl =>
      split at h
      · next e d he => cases h; exact .inr (.inl ⟨len, e, d, rfl, hl, he, rfl⟩)
      · cases h
    · cases h
  | enc len =>
    simp only [exec, execEnc, hs] at h
    split at h
    · next hr => cases h; exact .inr (.inr (.inl ⟨len, rfl, hr, rfl⟩))
    · cases h
  | dec len =>
    simp only [exec, execDec, hs] at h
    split at h
    · next hr => cases h; exact .inr (.inr (.inr ⟨len, rfl, hr, rfl⟩))
    · cases h

/-! ### The host's transactions -/

/-- R54: the register map, range by range. -/
theorem regAt_cases (off : Nat) :
    (off = 0x000 ∧ regAt off = .cmd) ∨ (off = 0x004 ∧ regAt off = .status) ∨ (off = 0x008 ∧ regAt off = .kinfo) ∨
    (off = 0x00C ∧ regAt off = .tout) ∨
    (∃ i : Fin 8, 0x010 ≤ off ∧ off ≤ 0x02C ∧ i.val = (off - 0x010) / 4 ∧ regAt off = .key i) ∨
    (∃ i : Fin 4, 0x030 ≤ off ∧ off ≤ 0x03C ∧ i.val = (off - 0x030) / 4 ∧ regAt off = .din i) ∨
    (∃ i : Fin 4, 0x040 ≤ off ∧ off ≤ 0x04C ∧ i.val = (off - 0x040) / 4 ∧ regAt off = .dout i) ∨
    (∃ i : Fin 60, 0x100 ≤ off ∧ off ≤ 0x1EC ∧ i.val = (off - 0x100) / 4 ∧ regAt off = .esched i) ∨
    (∃ i : Fin 60, 0x200 ≤ off ∧ off ≤ 0x2EC ∧ i.val = (off - 0x200) / 4 ∧ regAt off = .dsched i) ∨
    (0x00C < off ∧ ¬ (0x010 ≤ off ∧ off ≤ 0x02C) ∧ ¬ (0x030 ≤ off ∧ off ≤ 0x03C) ∧ ¬ (0x040 ≤ off ∧ off ≤ 0x04C) ∧
      ¬ (0x100 ≤ off ∧ off ≤ 0x1EC) ∧ ¬ (0x200 ≤ off ∧ off ≤ 0x2EC) ∧ regAt off = .reserved) ∨
    (off < 0x010 ∧ off % 4 ≠ 0 ∧ regAt off = .reserved) := by
  generalize e : regAt off = r
  unfold regAt at e
  split_ifs at e <;> subst e
  case pos h => exact .inl ⟨h, rfl⟩
  case pos h => exact .inr (.inl ⟨h, rfl⟩)
  case pos h => exact .inr (.inr (.inl ⟨h, rfl⟩))
  case pos h => exact .inr (.inr (.inr (.inl ⟨h, rfl⟩)))
  case pos h => exact .inr (.inr (.inr (.inr (.inl ⟨_, h.1, h.2, rfl, rfl⟩))))
  case pos h => exact .inr (.inr (.inr (.inr (.inr (.inl ⟨_, h.1, h.2, rfl, rfl⟩)))))
  case pos h => exact .inr (.inr (.inr (.inr (.inr (.inr (.inl ⟨_, h.1, h.2, rfl, rfl⟩))))))
  case pos h => exact .inr (.inr (.inr (.inr (.inr (.inr (.inr (.inl ⟨_, h.1, h.2, rfl, rfl⟩)))))))
  case pos h => exact .inr (.inr (.inr (.inr (.inr (.inr (.inr (.inr (.inl ⟨_, h.1, h.2, rfl, rfl⟩))))))))
  case neg =>
    refine .inr (.inr (.inr (.inr (.inr (.inr (.inr (.inr (.inr ?_))))))))
    by_cases h : off < 0x010
    · exact .inr ⟨h, by omega, rfl⟩
    · exact .inl ⟨by omega, ‹_›, ‹_›, ‹_›, ‹_›, ‹_›, rfl⟩

/-- Everything a register write can do (R53, R55, R56). -/
theorem memWrite_cases (off : Nat) (v : Word) (s : State) :
    (off = 0x000 ∧ memWrite off v s = commandWrite v s) ∨
    (∃ i : Fin 8, 0x010 ≤ off ∧ off ≤ 0x02C ∧ i.val = (off - 0x010) / 4 ∧
      memWrite off v s = .next { s with key := s.key.set i.val v }) ∨
    (∃ i : Fin 4, 0x030 ≤ off ∧ off ≤ 0x03C ∧ i.val = (off - 0x030) / 4 ∧
      memWrite off v s = .next { s with din := s.din.set i.val v }) ∨
    (off ≠ 0x000 ∧ ¬ (0x010 ≤ off ∧ off ≤ 0x02C) ∧ ¬ (0x030 ≤ off ∧ off ≤ 0x03C) ∧ memWrite off v s = .next s) := by
  rcases regAt_cases off with ⟨h, e⟩ | ⟨h, e⟩ | ⟨h, e⟩ | ⟨h, e⟩ | ⟨i, h1, h2, h3, e⟩ | ⟨i, h1, h2, h3, e⟩ |
    ⟨i, h1, h2, h3, e⟩ | ⟨i, h1, h2, h3, e⟩ | ⟨i, h1, h2, h3, e⟩ | ⟨h1, h2, h3, -, -, -, e⟩ | ⟨h1, h2, e⟩
  case inl => exact .inl ⟨h, by rw [memWrite, e]⟩
  case inr.inr.inr.inr.inl => exact .inr (.inl ⟨i, h1, h2, h3, by rw [memWrite, e]; rfl⟩)
  case inr.inr.inr.inr.inr.inl => exact .inr (.inr (.inl ⟨i, h1, h2, h3, by rw [memWrite, e]; rfl⟩))
  all_goals exact .inr (.inr (.inr ⟨by omega, by omega, by omega, by rw [memWrite, e]; rfl⟩))

theorem legalAccess_iff {off n : Nat} : legalAccess off n = true ↔ n = 4 ∧ off % 4 = 0 ∧ off ≤ 0xFFC := by
  simp [legalAccess, and_assoc]

theorem mapNext_eq_next {f : State → State} {r : Result} : mapNext f r = .next t ↔ ∃ u, r = .next u ∧ t = f u := by
  cases r <;> simp [mapNext, eq_comm]

/-! ### The step -/

/-- Everything a step can do when it answers a next state, by the agent whose step it is (R20). -/
theorem step_cases (h : step s = .next t) :
    (∃ p i, s.coreNext p ∧ decodeFields p.op p.tsel p.arg = .ok i ∧ exec i s = .next t) ∨
    (∃ off name, s.hostNext (.read off 4 name) ∧ legalAccess off 4 = true ∧
      t = afterHost s (s.hpc + 1) { s with reads := (name, memRead off s) :: s.reads }) ∨
    (∃ off v u, s.hostNext (.write off 4 v) ∧ legalAccess off 4 = true ∧ memWrite off v s = .next u ∧
      t = afterHost s (s.hpc + 1) u) ∨
    (∃ name mask target, s.hostNext (.bnz name mask target) ∧
      t = afterHost s (branchTarget name mask target s) s) ∨
    (s.hostNext .reset ∧ t = afterHost s (s.hpc + 1) (resetInput s)) ∨
    (s.pend = none ∧ s.nextStmt = none ∧ t = s) := by
  unfold step at h
  split at h
  · next p hp =>
    unfold coreStep at h
    split at h
    · next i hi => exact .inl ⟨p, i, completing_eq_some_iff.1 hp, hi, h⟩
    · cases h
  · next st hp hst =>
    have hn : s.hostNext st := by
      refine ⟨?_, hst⟩
      cases ht : s.coreTurn with
      | false => rfl
      | true => obtain ⟨p, hp'⟩ := coreNext_of_coreTurn ht; rw [completing_eq_some_iff.2 hp'] at hp; cases hp
    cases st with
    | read off n name =>
      obtain ⟨u, hu, rfl⟩ := mapNext_eq_next.1 h
      unfold hostRead at hu
      split at hu
      · next ha => cases hu; obtain ⟨rfl, -⟩ := legalAccess_iff.1 ha; exact .inr (.inl ⟨off, name, hn, ha, rfl⟩)
      · cases hu
    | write off n v =>
      obtain ⟨u, hu, rfl⟩ := mapNext_eq_next.1 h
      unfold hostWrite at hu
      split at hu
      · next ha =>
        obtain ⟨rfl, -⟩ := legalAccess_iff.1 ha
        exact .inr (.inr (.inl ⟨off, v, u, hn, ha, hu, rfl⟩))
      · cases hu
    | bnz name mask target => cases h; exact .inr (.inr (.inr (.inl ⟨name, mask, target, hn, rfl⟩)))
    | reset => cases h; exact .inr (.inr (.inr (.inr (.inl ⟨hn, rfl⟩))))
  · next hp hst =>
    cases h
    refine .inr (.inr (.inr (.inr (.inr ⟨?_, hst, rfl⟩))))
    cases hq : s.pend with
    | none => rfl
    | some q =>
      have : s.coreNext q := ⟨hq, .inr hst⟩
      rw [completing_eq_some_iff.2 this] at hp; cases hp

end Sys2Proof.Machine
end

