-- ==== Sys2Proof/Laws/PerInstr.lean ====
section
/-! SUPPORT. The family EncodeFields: what the fields of a command's encoding read as (spec/30_encoding.md R70). -/

namespace Sys2Proof.Laws.EncodeFields

/-- R70: OP, TSEL, ARG and RSVD of the encoding of `i`. -/
def Statement (i : Instr) : Prop :=
  cmdOp (encode i) = i.op ∧ cmdTsel (encode i) = i.tsel ∧ cmdArg (encode i) = i.arg ∧ cmdRsvd (encode i) = 0

/-- It holds of any operands: the fields do not overlap. -/
theorem of_fields (i : Instr) : Statement i := by
  rw [Statement, encode_eq_fieldsWord]
  exact ⟨cmdOp_fieldsWord .., cmdTsel_fieldsWord .., cmdArg_fieldsWord .., cmdRsvd_fieldsWord ..⟩

theorem tbl (tsel : BitVec 4) (tidx : Byte) : Statement (.tbl tsel tidx) := of_fields _
theorem expk (len : Byte) : Statement (.expk len) := of_fields _
theorem enc (len : Byte) : Statement (.enc len) := of_fields _
theorem dec (len : Byte) : Statement (.dec len) := of_fields _

end Sys2Proof.Laws.EncodeFields
end

