-- ==== Sys2Proof/Tests/Slice0.lean ====
section
/-! SUPPORT. The model's own tests, and a named witness for the hypotheses of every statement that has some. Expected
results are the spec's (spec/95_test_vectors.md, with the section in each comment). -/

namespace Sys2Proof.Tests

open Sys2Proof.Machine

/-! ### Well-formedness and decoding -/

/-- R72: TSEL 0xA selects no table. -/
theorem test_wellFormed_refuses_tsel_ten : (Instr.tbl 0xA 0).wellFormed = false := by decide
theorem test_wellFormed_takes_tsel_nine : (Instr.tbl 9 0xFF).wellFormed = true := by decide

/-! Words written out bit by bit from R70: RSVD, ARG, TSEL, OP. -/

theorem test_decode_tbl : decode 0b0000000000000000_01010011_0010_0001 = .ok (.tbl 2 0x53) := by decide
theorem test_decode_expk : decode 0b0000000000000000_00001000_0000_0010 = .ok (.expk 8) := by decide
theorem test_decode_enc : decode 0b0000000000000000_00000101_0000_0011 = .ok (.enc 5) := by decide
theorem test_decode_dec : decode 0b0000000000000000_11111111_0000_0100 = .ok (.dec 0xFF) := by decide

/-! 95, 2.6: the illegal words, each for its own reason. -/

theorem test_decode_reserved_bit : decode 0x00010403 = .error .reservedBits := by decide
theorem test_decode_opcode : decode 0x00000405 = .error .opcode := by decide
theorem test_decode_table_select : decode 0x000000A1 = .error .tableSelect := by decide
theorem test_decode_tsel_not_zero : decode 0x00000413 = .error .tselNotZero := by decide

theorem test_decodeTableWord : decodeTableWord 32 0x00005301 = some (.tbl 0 0x53) := by decide
theorem test_decodeTableWord_illegal : decodeTableWord 32 0x00000000 = none := by decide

/-! ### States to test on -/

/-- Does a result answer a next state with this property? -/
def nextHas (r : Result) (f : State → Bool) : Bool :=
  match r with
  | .next t => f t
  | .fault _ => false
  | .refused _ => false

/-- The AES-128 key of the source's vectors. -/
def key4 : List Word := [0x00010203, 0x04050607, 0x08090a0b, 0x0c0d0e0f]

/-- The key registers with that key in the first four. -/
def keyRegs : KeyRegs := #v[0x00010203, 0x04050607, 0x08090a0b, 0x0c0d0e0f, 0xFFFFFFFF, 0, 0, 0xFFFFFFFF]

def enc4 : Schedule := encSched 10 (expandWords key4)
def dec4 : Schedule := decSched 10 (expandWords key4)

theorem expandKey_key4 : expandKey key4 = .ok (enc4, dec4) := rfl

/-- Reset, with the schedule of the AES-128 key held. -/
def held : State :=
  { State.reset with
    esched := enc4.flatten
    dsched := dec4.flatten
    kinfo := { nk := 4, nr := 10 }
    status := { busy := false, kvalid := true, ovr := false, err := .none } }

/-- `s` with the host about to take the step `st`. -/
def withHost (st : HostStmt) (s : State) : State := { s with prog := [st], hpc := 0 }

/-- `s` with a command pending, `w` host steps before its completion. -/
def withPending (op tsel : BitVec 4) (arg : Byte) (d : Block) (w : Nat) (s : State) : State :=
  { s with
    status := { s.status with busy := true }
    pend := some { op := op, tsel := tsel, arg := arg, keyl := keyRegs, dinl := d }
    wait := w }

def plain : Block := #v[0x00112233, 0x44556677, 0x8899aabb, 0xccddeeff]
def cipher : Block := #v[0x69c4e0d8, 0x6a7b0430, 0xd8cdb780, 0x70b4c55a]
def zeroBlock : Block := #v[0, 0, 0, 0]

/-! ### One step of each instruction (95, 2.7.3): the completion, then an issue -/

/-- TBL T0, 0x53. -/
theorem test_tbl_completes :
    nextHas (step (withPending 1 2 0x53 zeroBlock 0 State.reset))
      (fun t => t.tout == 0xc1eded2c && t.pend.isNone && !t.status.busy) = true := by decide +kernel

/-- TBL INV_SBOX, 0x00: a Byte entry is zero-extended. -/
theorem test_tbl_byte_entry :
    nextHas (step (withPending 1 1 0x00 zeroBlock 0 State.reset)) (fun t => t.tout == 0x00000052) = true := by
  decide +kernel

/-- EXPK 4 (95, 2.4.3): words of both stores, the zero fill, KINFO and STATUS. KEY[4] and KEY[7] are not read. -/
theorem test_expk_completes :
    nextHas (step (withPending 2 0 4 zeroBlock 0 State.reset))
      (fun t => t.esched.get 43 == 0x4d2b30c5 && t.dsched.get 7 == 0x00f7bf03 && t.dsched.get 40 == 0x00010203 &&
        t.esched.get 44 == 0 && memRead 0x008 t == 0x00000A04 && memRead 0x004 t == 0x00000002) = true := by
  decide +kernel

/-- EXPK 5 is rejected with ERR = 1 (95, 2.7.1). -/
theorem test_expk_bad_length :
    nextHas (step (withHost (.write 0x000 4 0x00000502) held))
      (fun t => memRead 0x004 t == 0x00000012 && t.pend.isNone && t.esched == held.esched) = true := by decide +kernel

/-- The AES-128 known-answer vector (95, 1.1). -/
theorem test_enc_completes :
    nextHas (step (withPending 3 0 4 plain 0 held)) (fun t => t.dout == cipher && t.pend.isNone) = true := by
  decide +kernel

/-- ENC 5 with no schedule: the size error comes before NoSchedule (95, 2.7.1). -/
theorem test_enc_size_before_schedule :
    nextHas (step (withHost (.write 0x000 4 0x00000503) State.reset)) (fun t => memRead 0x004 t == 0x00000020) = true := by
  decide

/-- The same vector backwards. -/
theorem test_dec_completes :
    nextHas (step (withPending 4 0 4 cipher 0 held)) (fun t => t.dout == plain && t.pend.isNone) = true := by
  decide +kernel

/-- DEC 4 with no schedule (R200). -/
theorem test_dec_no_schedule :
    nextHas (step (withHost (.write 0x000 4 0x00000404) State.reset)) (fun t => memRead 0x004 t == 0x00000040) = true := by
  decide

/-! ### The agents -/

/-- 95, P5: with one host step to go, a second command is dropped and OVR is set; with none, the core is first. -/
theorem test_write_while_busy :
    nextHas (step (withHost (.write 0x000 4 0x00000403) (withPending 2 0 4 zeroBlock 1 State.reset)))
      (fun t => memRead 0x004 t == 0x00000005 && t.wait == 0) = true := by decide
theorem test_completion_before_write :
    nextHas (step (withHost (.write 0x000 4 0x00000403) (withPending 1 0 0 zeroBlock 0 State.reset)))
      (fun t => memRead 0x004 t == 0x00000000 && t.hpc == 0) = true := by decide +kernel

/-- 95, 2.7.4: STATUS is read-only, KEY[7] is writable, a misaligned read is refused. -/
theorem test_write_status_ignored :
    nextHas (step (withHost (.write 0x004 4 0xFFFFFFFF) State.reset)) (fun t => memRead 0x004 t == 0) = true := by decide
theorem test_write_key7 :
    nextHas (step (withHost (.write 0x02C 4 0xDEADBEEF) State.reset)) (fun t => memRead 0x02C t == 0xDEADBEEF) = true := by
  decide
theorem test_misaligned_read :
    (match step (withHost (.read 0x002 4 0) State.reset) with
      | .refused r => r == .badAccess 0x002 4
      | _ => false) = true := by decide

/-- 95, P6: reset discards the pending command. -/
theorem test_reset_discards :
    nextHas (step (withHost .reset (withPending 2 0 4 zeroBlock 3 held)))
      (fun t => t.pend.isNone && memRead 0x004 t == 0 && memRead 0x008 t == 0 && t.hpc == 1) = true := by decide +kernel

/-- A command word placed for fetching is the next step's command: EXPK 4 right after reset is accepted. -/
theorem test_withFetchWord :
    nextHas (step (State.reset.withFetchWord 32 0x00000402)) (fun t => t.pend.isSome && t.status.busy) = true := by decide

/-! ### Witnesses: a state and operands that meet the hypotheses of each statement -/

/-- A pending command that an issue accepts, in a state that meets the invariant. -/
theorem withPending_inv {op tsel : BitVec 4} {arg : Byte} {i : Instr} (d : Block) (w : Nat) (s : State) (h : s.Inv)
    (he : s.status.err = .none) (hd : decodeFields op tsel arg = .ok i)
    (ha : acceptable i s.status.kvalid = true) : (withPending op tsel arg d w s).Inv :=
  ⟨rfl, fun p hp => by cases hp; exact ⟨i, hd, ha⟩, fun _ => he, h.kinfo_legal, h.stores_legal⟩

theorem withPending_next (op tsel : BitVec 4) (arg : Byte) (d : Block) (s : State) :
    (withPending op tsel arg d 0 s).coreNext { op := op, tsel := tsel, arg := arg, keyl := keyRegs, dinl := d } :=
  ⟨rfl, .inl rfl⟩

theorem witness_reset_inv : State.reset.Inv := by
  constructor <;> simp [State.reset, kinfoLegal, storesLegal]

theorem held_inv : held.Inv ∧ held.status.kvalid = true := by
  refine ⟨⟨rfl, fun p hp => (by cases hp), fun _ => rfl, ?_, ?_⟩, rfl⟩
  · simp [held, kinfoLegal]
  · simp only [storesLegal, held, if_true]
    exact ⟨key4, enc4, dec4, rfl, expandKey_key4, rfl, rfl⟩

theorem witness_DecodeOfEncodeIsTheCommand : (Instr.tbl 9 0xFF).wellFormed = true := by decide
theorem witness_EncodeOfDecodeIsTheWord : decode 0x00000402 = .ok (.expk 4) := by decide
theorem witness_IllegalWordsAreListedAndOnlyReported :
    decode 0x80000001 = .error .reservedBits ∧ State.reset.status.busy = false := by decide
theorem witness_DecoderRowsAreMaskAndMatch :
    (0x0000FF91 &&& 0xFFFF000F : Word) = 0x00000001 ∧ (0xFFFF000F &&& 0x000000A1 : Word) = 0x00000001 ∧
      ¬ (0x000000A1 : Word).extractLsb' 4 4 ≤ (9 : BitVec 4) := by decide
/-- SETKEY of eight words and of none, and two commands that assemble. -/
theorem witness_PseudoInstructionsExpand : (key4 ++ key4).length ≤ 8 ∧ ([] : List Word).length ≤ 8 ∧
    asmWord (.tbl (.named .u3) 255) = some 0x0000FF91 ∧ asmWord (.dec 4) = some 0x00000404 := by decide
/-- The first and the last table, by name too, and the last operand. -/
theorem witness_AssembledWordIsTheFieldsOred : 9 ≤ 9 ∧ 255 ≤ 255 ∧ 0 ≤ 9 ∧
    ([Table.sbox, .invSbox, .t0, .t1, .t2, .t3, .u0, .u1, .u2, .u3][0]? = some .sbox) ∧
    ([Table.sbox, .invSbox, .t0, .t1, .t2, .t3, .u0, .u1, .u2, .u3][9]? = some .u3) := by decide
theorem witness_InverseTimesByteIsOne : (0xFF : Byte) ≠ 0 := by decide
theorem witness_AffineMapsInBitForm : 7 < 8 ∧ 0 < 8 := by decide
theorem witness_ExpandedWordsFollowTheRecurrence : 1 ≤ 1 ∧ key4.length = 4 ∧ 43 < 4 * (key4.length + 6 + 1) := by decide
theorem witness_ExpandKeyFailsOnOtherLengths :
    (key4.length = 4 ∧ (key4 ++ [1, 2]).length = 6 ∧ (key4 ++ key4).length = 8) ∧
    (([] : List Word).length = 0 ∧ (key4 ++ [1]).length = 5 ∧ (key4 ++ key4 ++ [1]).length = 9) := by decide
/-- A schedule of 10 rounds, its last middle key, the first word past it, and the last word of the store. -/
theorem witness_StoreLaysTheScheduleOut :
    (1 ≤ 10 ∧ 10 ≤ 14 ∧ enc4.middle.length = 10 - 1 ∧ 8 < enc4.middle.length) ∧
    (4 * (10 + 1) ≤ 44 ∧ 44 < 60 ∧ 4 * 14 + 3 < 60) ∧ enc4 = encSched 10 (expandWords key4) ∧ 43 < 4 * (10 + 1) :=
  ⟨⟨by decide, by decide, by simp [enc4, encSched], by simp [enc4, encSched]⟩, by decide, rfl, by decide⟩
theorem witness_EncryptionStoreIsTheWordSequence : ∃ e d, expandKey key4 = .ok (e, d) := ⟨_, _, expandKey_key4⟩
/-- Rows 0, 1, 9, 10 and 11 of the decryption store of a key of 4 words, one in each clause, at the clauses' ends. -/
theorem witness_DecryptionStoreIsReversed :
    (∃ e d, expandKey key4 = .ok (e, d)) ∧ 4 * 0 + 3 < 60 ∧ 4 * 1 + 0 < 60 ∧ 4 * 9 + 3 < 60 ∧ 4 * 10 + 0 < 60 ∧
      4 * 11 + 0 < 60 ∧ 4 * 14 + 3 < 60 := ⟨⟨_, _, expandKey_key4⟩, by decide⟩
/-- Blocks after each round, one standard round after another, for each direction. -/
def encBlocks (p : Block) (x : Store) : Nat → Block
  | 0 => addRoundKey (sk x 0) p
  | r + 1 => encRound (encBlocks p x r) (sk x (r + 1))
def decBlocks (p : Block) (x : Store) : Nat → Block
  | 0 => addRoundKey (sk x 0) p
  | r + 1 => decRound (decBlocks p x r) (sk x (r + 1))

theorem witness_RoundsGatherTheirColumns (p : Block) (x : Store) : 3 < 4 ∧ 1 ≤ 10 ∧ 4 * 14 + 3 < 60 ∧
    (∃ b : Nat → Block, b 0 = addRoundKey (sk x 0) p ∧ ∀ r, 1 ≤ r → r ≤ 10 - 1 → b r = encRound (b (r - 1)) (sk x r)) ∧
    (∃ b : Nat → Block, b 0 = addRoundKey (sk x 0) p ∧ ∀ r, 1 ≤ r → r ≤ 10 - 1 → b r = decRound (b (r - 1)) (sk x r)) :=
  ⟨by decide, by decide, by decide, ⟨encBlocks p x, rfl, fun r h _ => by cases r <;> [cases h; rfl]⟩,
    ⟨decBlocks p x, rfl, fun r h _ => by cases r <;> [cases h; rfl]⟩⟩
/-- A key; and a pending ENC beside a pending DEC of the block that it leaves in DOUT, one schedule held. -/
theorem witness_DecryptUndoesEncrypt :
    (∃ e d, expandKey key4 = .ok (e, d)) ∧
    (∃ (s u : State) (p q : Pending) (t : State), s.Inv ∧ s.coreNext p ∧ p.op = 3 ∧ u.coreNext q ∧ q.op = 4 ∧
      u.dsched = s.dsched ∧ u.kinfo = s.kinfo ∧ exec (.enc 4) s = .next t ∧ q.dinl = t.dout) :=
  ⟨⟨_, _, expandKey_key4⟩, withPending 3 0 4 plain 0 held,
    withPending 4 0 4 (encryptBlock plain held.esched 10) 0 held, _, _, _,
    withPending_inv plain 0 held held_inv.1 rfl (i := .enc 4) rfl rfl, withPending_next 3 0 4 plain held, rfl,
    withPending_next 4 0 4 _ held, rfl, rfl, rfl, rfl, rfl⟩

/-- Each of the four commands, accepted while idle. -/
theorem witness_AcceptedIssueLatchesTheCommand :
    (State.reset.coreTurn = false ∧ State.reset.status.busy = false ∧
      acceptable (.tbl 9 0xFF) State.reset.status.kvalid = true ∧ acceptable (.expk 8) State.reset.status.kvalid = true) ∧
    (held.coreTurn = false ∧ held.status.busy = false ∧
      acceptable (.enc 4) held.status.kvalid = true ∧ acceptable (.dec 4) held.status.kvalid = true) :=
  ⟨by decide, rfl, rfl, rfl, rfl⟩
theorem witness_RejectedIssueOnlyReports :
    State.reset.coreTurn = false ∧ State.reset.status.busy = false ∧ decode 0x00000000 = .error .opcode ∧
      (9 : BitVec 4) < 0xA ∧
      ((5 : Byte) ≠ 4 ∧ (5 : Byte) ≠ 6 ∧ (5 : Byte) ≠ 8) ∧ State.reset.status.kvalid = false := by decide

/-- A busy machine whose host is next. -/
def busyHost (st : HostStmt) : State := withHost st (withPending 2 0 4 zeroBlock 1 State.reset)

theorem busyHost_next (st : HostStmt) : (busyHost st).hostNext st := ⟨rfl, rfl⟩
theorem busyHost_inv (st : HostStmt) : (busyHost st).Inv :=
  have h := withPending_inv (op := 2) (tsel := 0) (arg := 4) (i := .expk 4) zeroBlock 1 State.reset witness_reset_inv rfl
    rfl rfl
  ⟨h.busy_pend, h.pend_accepted, h.pend_err, h.kinfo_legal, h.stores_legal⟩

theorem witness_CmdWriteWhileBusyOnlySetsOvr :
    (busyHost (.write 0 4 0xFFFFFFFF)).coreTurn = false ∧ (busyHost (.write 0 4 0xFFFFFFFF)).status.busy = true := by decide
theorem witness_CommandWriteBranches (v : Word) : (withHost (.write 0x000 4 v) State.reset).hostNext (.write 0x000 4 v) :=
  ⟨rfl, rfl⟩
theorem witness_StepRunsTheDecodedCommand :
    (withHost (.write 0x000 4 0x00000402) State.reset).hostNext (.write 0x000 4 0x00000402) ∧
      decode 0x00000402 = .ok (.expk 4) := ⟨⟨rfl, rfl⟩, by decide⟩

/-- For each row of R72, TSEL 0 and 9 the ends, a pending TBL of it. -/
theorem witness_TblCompletionWritesTout (tsel : BitVec 4) :
    ∃ (s : State) (p : Pending), s.coreNext p ∧ p.op = 1 ∧ p.tsel = tsel ∧ p.arg = 0xFF :=
  ⟨_, _, withPending_next 1 tsel 0xFF zeroBlock State.reset, rfl, rfl, rfl⟩
theorem witness_tblRows : (9, ubox 3) ∈ tblRows ∧ (0, fun b => (sbox b).setWidth 32) ∈ tblRows := by simp [tblRows]
theorem witness_ExpkCompletionWritesTheSchedules (len : Byte) :
    ∃ (s : State) (p : Pending), s.coreNext p ∧ p.op = 2 ∧ p.tsel = 0 ∧ p.arg = len :=
  ⟨_, _, withPending_next 2 0 len zeroBlock State.reset, rfl, rfl, rfl⟩
theorem witness_EncCompletionWritesDout :
    ∃ (s : State) (p : Pending), s.kinfo.nr = 10 ∧ s.coreNext p ∧ p.op = 3 ∧ p.tsel = 0 ∧ p.arg = 4 :=
  ⟨_, _, rfl, withPending_next 3 0 4 plain held, rfl, rfl, rfl⟩
theorem witness_DecCompletionWritesDout :
    ∃ (s : State) (p : Pending), s.kinfo.nr = 10 ∧ s.coreNext p ∧ p.op = 4 ∧ p.tsel = 0 ∧ p.arg = 4 :=
  ⟨_, _, rfl, withPending_next 4 0 4 cipher held, rfl, rfl, rfl⟩
theorem witness_PendingCommandIgnoresKeyAndDin : ∃ (s : State) (p : Pending), s.coreNext p :=
  ⟨_, _, withPending_next 3 0 4 plain held⟩
/-- Key registers that agree on the first four words and differ in the fifth and the last. -/
theorem witness_ExpkIgnoresTheOtherKeyWords :
    ∃ (s : State) (p : Pending), s.coreNext p ∧ p.op = 2 ∧
      (∀ i : Fin 8, i.val < p.arg.toNat →
        (#v[0x00010203, 0x04050607, 0x08090a0b, 0x0c0d0e0f, 0, 0, 0, 0] : KeyRegs).get i = p.keyl.get i) :=
  ⟨_, _, withPending_next 2 0 4 zeroBlock State.reset, rfl, by decide⟩
/-- One state for each clause: an OP that is no command's, an EXPK of 9 words, and an ENC with no schedule held. -/
theorem witness_CompletionFaultsOnNoCommandNoKeyLengthOrNoRoundCount :
    (∃ (s : State) (p : Pending), s.coreNext p ∧ decodeFields p.op p.tsel p.arg = .error .opcode) ∧
    (∃ (s : State) (p : Pending), s.coreNext p ∧ p.op = 2 ∧ p.tsel = 0 ∧ p.arg ≠ 4 ∧ p.arg ≠ 6 ∧ p.arg ≠ 8) ∧
    (∃ (s : State) (p : Pending), s.coreNext p ∧ p.op = 3 ∧ p.tsel = 0 ∧ s.kinfo.nr ≠ 10 ∧ s.kinfo.nr ≠ 12 ∧
      s.kinfo.nr ≠ 14) :=
  ⟨⟨_, _, withPending_next 5 0 0 zeroBlock State.reset, rfl⟩,
    ⟨_, _, withPending_next 2 0 9 zeroBlock State.reset, rfl, rfl, by decide, by decide, by decide⟩,
    ⟨_, _, withPending_next 3 0 4 zeroBlock State.reset, rfl, rfl, by decide, by decide, by decide⟩⟩
/-- The largest word, placed in a busy machine. -/
theorem witness_PlacedWordIsTheNextStep :
    0xFFFFFFFF < 2 ^ 32 ∧ (withPending 2 0 4 zeroBlock 0 State.reset).pend.isSome = true := by decide
theorem witness_StepCompletesThePendingCommand :
    ∃ (s : State) (p : Pending), s.coreNext p ∧ decodeFields p.op p.tsel p.arg = .ok (.dec 4) :=
  ⟨_, _, withPending_next 4 0 4 cipher held, rfl⟩
theorem witness_IdleMachineHoldsItsState : State.reset.pend = none ∧ State.reset.nextStmt = none := by decide
/-- Reset while busy, and while idle. -/
theorem witness_ResetClearsTheWholeRecord : (busyHost .reset).hostNext .reset ∧ (withHost .reset held).hostNext .reset :=
  ⟨⟨rfl, rfl⟩, ⟨rfl, rfl⟩⟩
theorem witness_ReadsFollowTheRegisterMap : 7 < 8 ∧ 3 < 4 ∧ 59 < 60 ∧
    (0x050 ≤ 0x0FC ∧ 0x0FC ≤ 0x0FC) ∧ (0x1F0 ≤ 0x1F0 ∧ 0x1F0 ≤ 0x1FC) ∧ 0x2F0 ≤ 0xFFC := by decide
theorem witness_ReadsHaveNoSideEffect :
    (withHost (.read 0xFFC 4 1) State.reset).hostNext (.read 0xFFC 4 1) ∧ 0xFFC % 4 = 0 ∧ 0xFFC ≤ 0xFFC :=
  ⟨⟨rfl, rfl⟩, by decide⟩
/-- KEY[7], DIN[3]; and for the last clause STATUS, the first offset past DIN, and the window's last. -/
theorem witness_WritesFollowTheRegisterMap : (7 < 8 ∧ 3 < 4) ∧
    (0x004 % 4 = 0 ∧ 0x004 ≠ 0x000 ∧ ¬ (0x010 ≤ 0x004 ∧ 0x004 ≤ 0x02C) ∧ ¬ (0x030 ≤ 0x004 ∧ 0x004 ≤ 0x03C)) ∧
    (0x040 % 4 = 0 ∧ ¬ (0x010 ≤ 0x040 ∧ 0x040 ≤ 0x02C) ∧ ¬ (0x030 ≤ 0x040 ∧ 0x040 ≤ 0x03C)) ∧ 0xFFC % 4 = 0 := by decide
theorem witness_OnlyBadAccessesAreRefused :
    (withHost (.read 0x1000 4 0) State.reset).hostNext (.read 0x1000 4 0) ∧ ¬ (4 = 4 ∧ 0x1000 % 4 = 0 ∧ 0x1000 ≤ 0xFFC) :=
  ⟨⟨rfl, rfl⟩, by decide⟩
theorem witness_BranchMovesOnlyTheHost :
    ∃ s : State, s.hostNext (.bnz 0 1 0) ∧ s.reads.lookup 0 = some 1 :=
  ⟨{ withHost (.bnz 0 1 0) State.reset with reads := [(0, 1)] }, ⟨rfl, rfl⟩, rfl⟩
theorem witness_InvariantStatesStepSafely : State.reset.Inv ∧ held.Inv := ⟨witness_reset_inv, held_inv.1⟩
theorem witness_StepKeepsTheInvariant : State.reset.Inv ∧ step State.reset = .next State.reset :=
  ⟨witness_reset_inv, rfl⟩
/-- A step that changes TOUT and is no reset. -/
theorem witness_ResultsChangeOnlyAtTheirCompletion :
    ∃ s t, step s = .next t ∧ ¬ s.hostNext .reset ∧ t.tout ≠ s.tout :=
  ⟨withPending 1 0 0 zeroBlock 0 State.reset, _, rfl, fun h => (by cases h.2), by decide +kernel⟩
theorem witness_OnlyTheHostWritesKeyAndDin :
    ∃ s t, step s = .next t ∧ ¬ s.hostNext .reset ∧ t.key ≠ s.key :=
  ⟨withHost (.write 0x010 4 1) State.reset, _, rfl, fun h => (by cases h.2), by decide⟩
/-- A step that sets OVR, one that clears BUSY. -/
theorem witness_FlagsChangeOnlyAtTheirEvents :
    (∃ s t, step s = .next t ∧ t.status.ovr = true ∧ s.status.ovr = false) ∧
    (∃ s t, step s = .next t ∧ t.status.busy = false ∧ s.status.busy = true) :=
  ⟨⟨busyHost (.write 0 4 0), _, rfl, rfl, rfl⟩, ⟨withPending 1 0 0 zeroBlock 0 State.reset, _, rfl, rfl, rfl⟩⟩
theorem witness_HostStepsKeepThePendingCommand :
    ∃ s st t, s.Inv ∧ s.pend.isSome = true ∧ s.hostNext st ∧ st ≠ .reset ∧ step s = .next t :=
  ⟨_, .write 0x010 4 1, _, busyHost_inv _, rfl, busyHost_next _, by decide, rfl⟩
theorem witness_PendingCommandCompletesInTime : ∃ s : State, s.Inv ∧ s.pend.isSome = true ∧ s.wait = 1 :=
  ⟨_, busyHost_inv (.read 0x004 4 0), rfl, rfl⟩
/-- ENC with a schedule held, TBL and EXPK with none; and a completing EXPK of the longest key. -/
theorem witness_LatencyDependsOnOpcodeAndRounds :
    (held.Inv ∧ acceptable (.enc 4) held.status.kvalid = true) ∧
    (State.reset.Inv ∧ acceptable (.tbl 9 0) State.reset.status.kvalid = true ∧
      acceptable (.expk 8) State.reset.status.kvalid = true) ∧
    (∃ u t p, u.coreNext p ∧ p.op = 2 ∧ p.arg = 8 ∧ step u = .next t) :=
  ⟨⟨held_inv.1, rfl⟩, ⟨witness_reset_inv, rfl, rfl⟩,
    ⟨_, _, _, withPending_next 2 0 8 zeroBlock State.reset, rfl, rfl, rfl⟩⟩
/-- KEY[7] and DIN[3]; and for the last clause a read-only register, and the last offset of the window. -/
theorem witness_HostWriteStepStoresTheWord :
    (withHost (.write (0x010 + 4 * 7) 4 1) held).hostNext (.write (0x010 + 4 * 7) 4 1) ∧
    (busyHost (.write (0x030 + 4 * 3) 4 1)).hostNext (.write (0x030 + 4 * 3) 4 1) ∧
    (withHost (.write 0x004 4 1) held).hostNext (.write 0x004 4 1) ∧
    (withHost (.write 0xFFC 4 1) held).hostNext (.write 0xFFC 4 1) ∧
    (0xFFC % 4 = 0 ∧ 0x004 ≠ 0x000 ∧ ¬ (0x010 ≤ 0x004 ∧ 0x004 ≤ 0x02C) ∧ ¬ (0x030 ≤ 0xFFC ∧ 0xFFC ≤ 0x03C)) :=
  ⟨⟨rfl, rfl⟩, busyHost_next _, ⟨rfl, rfl⟩, ⟨rfl, rfl⟩, by decide⟩
/-- A pending ENC of one block beside a pending ENC of another, with other contents of KEY and DOUT. -/
theorem witness_ControlDoesNotDependOnData :
    ∃ s u : State, s.control = u.control ∧ s.reads = u.reads ∧ s.key ≠ u.key ∧ s.pend ≠ u.pend :=
  ⟨withPending 3 0 4 plain 0 held, { withPending 3 0 4 cipher 0 held with key := keyRegs, dout := plain }, rfl, rfl,
    by decide, by decide⟩

end Sys2Proof.Tests
end

section
/-! PROOFS. Words as bytes and the rotations (spec/00_scope.md R10 to R12): what `byteOf` reads of a packed and of a
rotated word, and the laws of packing and of rotating that follow, byte by byte. -/

namespace Sys2Proof.Machine

/-! ### A word and its four bytes (R10) -/

theorem getLsbD_byteOf (w : Word) (k : Fin 4) {j : Nat} (hj : j < 8) :
    (byteOf w k).getLsbD j = w.getLsbD (24 - 8 * k.val + j) := by
  simp [byteOf, hj]

/-- R10: a word is determined by its four bytes. -/
theorem eq_of_byteOf_eq {v w : Word} (h : ∀ k, byteOf v k = byteOf w k) : v = w := by
  refine BitVec.eq_of_getLsbD_eq fun i hi => ?_
  have hbit := congrArg (·.getLsbD (i % 8)) (h ⟨3 - i / 8, by omega⟩)
  have hpos : 24 - 8 * (3 - i / 8) + i % 8 = i := by omega
  simpa only [getLsbD_byteOf _ _ (Nat.mod_lt i (by decide : 0 < 8)), hpos] using hbit

@[simp] theorem unpack_getElem (w : Word) (i : Nat) (hi : i < 4) : (unpack w)[i] = byteOf w ⟨i, hi⟩ := by
  match i, hi with
  | 0, _ | 1, _ | 2, _ | 3, _ => rfl

theorem byteOf_or (v w : Word) (k : Fin 4) : byteOf (v ||| w) k = byteOf v k ||| byteOf w k :=
  BitVec.extractLsb'_or

/-- A byte shifted to position `q` of a word is byte `q` of it, and every other byte is zero. -/
theorem byteOf_shiftLeft (x : Byte) (q k : Fin 4) :
    byteOf (x.setWidth 32 <<< (24 - 8 * q.val)) k = if k = q then x else 0 := by
  refine BitVec.eq_of_getLsbD_eq fun j hj => ?_
  rw [getLsbD_byteOf _ _ hj, BitVec.getLsbD_shiftLeft, BitVec.getLsbD_setWidth]
  rcases lt_trichotomy k q with hkq | rfl | hkq
  · rw [if_neg hkq.ne, BitVec.getLsbD_of_ge x _ (by omega)]
    simp
  · simp [show 24 - 8 * k.val + j < 32 by omega, show j < 32 by omega]
  · simp [hkq.ne', show 24 - 8 * k.val + j < 24 - 8 * q.val by omega]

theorem pack_eq_or_shiftLeft (b : Bytes4) :
    pack b = (b[0].setWidth 32 <<< (24 - 8 * (0 : Fin 4).val)) ||| (b[1].setWidth 32 <<< (24 - 8 * (1 : Fin 4).val)) |||
      (b[2].setWidth 32 <<< (24 - 8 * (2 : Fin 4).val)) ||| (b[3].setWidth 32 <<< (24 - 8 * (3 : Fin 4).val)) := by
  simp [pack]

@[simp] theorem byteOf_pack (b : Bytes4) (k : Fin 4) : byteOf (pack b) k = b[k.val] := by
  rw [pack_eq_or_shiftLeft]
  simp only [byteOf_or, byteOf_shiftLeft]
  match k with
  | 0 | 1 | 2 | 3 => simp

@[simp] theorem pack_unpack (w : Word) : pack (unpack w) = w :=
  eq_of_byteOf_eq fun k => by rw [byteOf_pack, unpack_getElem]

@[simp] theorem unpack_pack (b : Bytes4) : unpack (pack b) = b :=
  Vector.ext fun i hi => by rw [unpack_getElem, byteOf_pack]

/-! ### Rotating a word (R11) -/

/-- R11: bit `i` of a word rotated right by `n` is bit `i + n`, counted around the word. -/
theorem getLsbD_ror32 (w : Word) (n : Nat) {i : Nat} (hi : i < 32) :
    (ror32 w n).getLsbD i = w.getLsbD ((i + n) % 32) := by
  rw [ror32, BitVec.getLsbD_rotateRight]
  by_cases hlow : i < 32 - n % 32
  · simp [hlow, show (i + n) % 32 = n % 32 + i by omega]
  · simp [hlow, hi, show (i + n) % 32 = i - (32 - n % 32) by omega]

theorem ror32_ror32 (w : Word) (m n : Nat) : ror32 (ror32 w m) n = ror32 w (n + m) := by
  refine BitVec.eq_of_getLsbD_eq fun i hi => ?_
  rw [getLsbD_ror32 _ _ hi, getLsbD_ror32 _ _ (Nat.mod_lt _ (by decide)), getLsbD_ror32 _ _ hi, Nat.mod_add_mod,
    Nat.add_assoc]

@[simp] theorem ror32_zero (w : Word) : ror32 w 0 = w :=
  BitVec.eq_of_getLsbD_eq fun i hi => by rw [getLsbD_ror32 w 0 hi, Nat.add_zero, Nat.mod_eq_of_lt hi]

/-- R11: rotating left by one byte is rotating right by the other three. -/
theorem rol32_eight (w : Word) : rol32 w 8 = ror32 w 24 := by
  rw [rol32, ror32, BitVec.rotateLeft_def, BitVec.rotateRight_def, BitVec.or_comm]

/-- Rotating right by 8 moves every byte one position up; the last wraps to the front. -/
theorem byteOf_ror32_eight (w : Word) (k : Fin 4) : byteOf (ror32 w 8) k = byteOf w (k - 1) := by
  refine BitVec.eq_of_getLsbD_eq fun j hj => ?_
  have hk : (24 - 8 * k.val + j + 8) % 32 = 24 - 8 * (k - 1).val + j := by
    match k with
    | 0 | 1 | 2 | 3 => simp; omega
  rw [getLsbD_byteOf _ _ hj, getLsbD_ror32 _ _ (by omega), getLsbD_byteOf _ _ hj, hk]

/-! ### Rotating a list of bytes (R12) -/

/-- R12: `n + 1` applications are one application after `n` of them. -/
theorem rotlistRight_succ (l : Bytes4) (n : Nat) : rotlistRight (n + 1) l = rotlistRight 1 (rotlistRight n l) := by
  induction n generalizing l with
  | zero => rfl
  | succ n ih => exact ih (rotlistRight 1 l)

/-- R12: the left rotation by one position is the right rotation by three. -/
theorem rotlistLeft1_eq_rotlistRight (l : Bytes4) : rotlistLeft1 l = rotlistRight 3 l := rfl

/-- R12, one position: packed, the bytes are those of the word rotated right by 8. -/
theorem pack_rotlistRight_one (l : Bytes4) : pack (rotlistRight 1 l) = ror32 (pack l) 8 := by
  refine eq_of_byteOf_eq fun k => ?_
  rw [byteOf_ror32_eight, byteOf_pack, byteOf_pack]
  match k with
  | 0 | 1 | 2 | 3 => rfl

theorem pack_rotlistRight (l : Bytes4) (n : Nat) : pack (rotlistRight n l) = ror32 (pack l) (8 * n) := by
  induction n with
  | zero => exact (ror32_zero _).symm
  | succ n ih => rw [rotlistRight_succ, pack_rotlistRight_one, ih, ror32_ror32, Nat.mul_succ, Nat.add_comm]

theorem pack_rotlistLeft1 (l : Bytes4) : pack (rotlistLeft1 l) = rol32 (pack l) 8 := by
  rw [rotlistLeft1_eq_rotlistRight, pack_rotlistRight, rol32_eight]

/-! ### The obligations of R10 and R12 -/

/-- Settles O8: the bytes of a word, packed, and a packed word's bytes agree byte by byte. -/
theorem packAndUnpackAreInverse : Obligations.PackAndUnpackAreInverse :=
  ⟨pack_unpack, unpack_pack⟩

/-- Settles O9, by induction on the number of positions, one position being a rotation of the word by 8. -/
theorem listRotationsRotateTheWord : Obligations.ListRotationsRotateTheWord :=
  ⟨fun _ _ _ _ => ⟨rfl, rfl⟩, fun l n => ⟨rfl, rotlistRight_succ l n⟩, pack_rotlistRight, pack_rotlistLeft1⟩

end Sys2Proof.Machine
end

section
/-! PROOFS. The state across a step (spec/10_state.md R20 to R34): what each step can have done to the block's record,
as one list of named events, and the statements about the invariant and about who writes which register that follow. -/

namespace Sys2Proof.Machine

variable {s t u : State} {p : Pending}

/-! ### Whose step it is -/

/-- R186: when the core is next, the step is its completion. -/
theorem step_of_coreNext (hc : s.coreNext p) : step s = coreStep p s := by
  rw [step, completing_eq_some_iff.2 hc]

/-- R20: when the host is next, the step is its own. -/
theorem step_of_hostNext {st : HostStmt} (hn : s.hostNext st) : step s = hostStep st s := by
  obtain ⟨hc, hst⟩ := hn
  rw [step, completing_eq_none hc, hst]

/-- R51, R53: the host's write to CMD is a command write, with the host one position further. -/
theorem hostStep_write_cmd (v : Word) (s : State) :
    hostStep (.write 0x000 4 v) s = mapNext (afterHost s (s.hpc + 1)) (commandWrite v s) := rfl

theorem commandWrite_of_decode {v : Word} {i : Instr} (hd : decode v = .ok i) (s : State) :
    commandWrite v s = exec i s := by
  rw [commandWrite, hd]

/-- Settles O38: the host's step is its own write, and the word written decodes to the command. -/
theorem stepRunsTheDecodedCommand : Obligations.StepRunsTheDecodedCommand := by
  intro s v i hn hd
  rw [step_of_hostNext hn, hostStep_write_cmd, commandWrite_of_decode hd]
  rfl

/-- The word placed by `withFetchWord` stands where the host is. -/
theorem withFetchWord_nextStmt (s : State) (nbits w : Nat) :
    (s.withFetchWord nbits w).nextStmt = some (.write 0x000 4 (BitVec.ofNat 32 (w % 2 ^ nbits))) := by
  have hlen : (s.prog.take s.hpc).length = min s.hpc s.prog.length := List.length_take
  rw [State.nextStmt, State.withFetchWord, List.getElem?_append_right hlen.le, hlen, Nat.sub_self]
  rfl

/-- A command pending when a word is placed does not complete before the word is written. -/
theorem withFetchWord_coreTurn (s : State) (nbits w : Nat) : (s.withFetchWord nbits w).coreTurn = false := by
  rw [State.coreTurn, withFetchWord_nextStmt]
  cases hp : s.pend <;> simp [State.withFetchWord, hp]

/-- Settles O41: the word stands where the host is, and the step is the host's. -/
theorem placedWordIsTheNextStep : Obligations.PlacedWordIsTheNextStep := by
  intro s w hw
  have hnext := withFetchWord_nextStmt s 32 w
  rw [Nat.mod_eq_of_lt hw] at hnext
  exact ⟨withFetchWord_coreTurn s 32 w, hnext⟩

/-! ### The reserved bits (R28, R29) -/

/-- R28: no flag of STATUS stands in bit 3 or above bit 7. -/
theorem statusWord_reserved (st : Status) : statusWord st &&& 0xFFFFFF08 = 0 := by
  have herr : ∀ c : BitVec 4, (c.setWidth 32 <<< 4) &&& 0xFFFFFF08 = 0 := by decide
  have hovr : ∀ b, (flagBit b <<< 2) &&& 0xFFFFFF08 = 0 := by decide
  have hkvalid : ∀ b, (flagBit b <<< 1) &&& 0xFFFFFF08 = 0 := by decide
  have hbusy : ∀ b, flagBit b &&& 0xFFFFFF08 = 0 := by decide
  simp only [statusWord, BitVec.and_or_distrib_right, herr, hovr, hkvalid, hbusy, BitVec.or_self]

/-- R29: NK stands in bits 3:0 and NR in bits 11:8. -/
theorem kinfoWord_reserved (k : KInfo) : kinfoWord k &&& 0xFFFFF0F0 = 0 := by
  have hnr : ∀ c : BitVec 4, (c.setWidth 32 <<< 8) &&& 0xFFFFF0F0 = 0 := by decide
  have hnk : ∀ c : BitVec 4, c.setWidth 32 &&& 0xFFFFF0F0 = 0 := by decide
  simp only [kinfoWord, BitVec.and_or_distrib_right, hnr, hnk, BitVec.or_self]

/-- Settles O44: STATUS and KINFO read as words whose fields all stand outside the reserved bits. -/
theorem reservedBitsReadZero : Obligations.ReservedBitsReadZero :=
  fun s => ⟨⟨rfl, rfl, rfl, rfl, rfl⟩, statusWord_reserved s.status, kinfoWord_reserved s.kinfo⟩

/-! ### A completion reads the latched copies (R32) -/

/-- R182 to R185: at the core's step a command answers the same with any contents of KEY and DIN. -/
theorem exec_core_set_key_din (i : Instr) (hc : s.coreNext p) (k : KeyRegs) (d : Block) :
    exec i { s with key := k, din := d } = mapNext (fun t => { t with key := k, din := d }) (exec i s) := by
  have hs := completing_eq_some_iff.2 hc
  have hs' : ({ s with key := k, din := d } : State).completing = some p := hs
  cases i with
  | tbl tsel tidx =>
    simp only [exec, execTbl, hs, hs']
    cases tableOfTsel p.tsel <;> rfl
  | expk len =>
    simp only [exec, execExpk, hs, hs']
    cases keyLenLegal p.arg.toNat
    · rfl
    · cases expandKey (p.keyl.toList.take p.arg.toNat) <;> rfl
  | enc len =>
    simp only [exec, execEnc, hs, hs']
    cases roundsLegal s.kinfo.nr <;> rfl
  | dec len =>
    simp only [exec, execDec, hs, hs']
    cases roundsLegal s.kinfo.nr <;> rfl

/-- Settles O35: the completion is of the command that PEND names, and that command reads neither register. -/
theorem pendingCommandIgnoresKeyAndDin : Obligations.PendingCommandIgnoresKeyAndDin := by
  intro s p k d hc
  have hc' : ({ s with key := k, din := d } : State).coreNext p := hc
  rw [step_of_coreNext hc, step_of_coreNext hc', coreStep, coreStep]
  cases decodeFields p.op p.tsel p.arg with
  | error e => rfl
  | ok i => exact exec_core_set_key_din i hc k d

/-! ### The events of a step -/

/-- What a step from `s` can have done to the block's record when it answers a next state: one constructor for each
kind of event, with its guard. `stepEvent_of_step` says that nothing else happens. -/
inductive StepEvent (s : State) : State → Prop where
  /-- R182: a TBL completes. -/
  | tblDone (p : Pending) (w : Word) : s.coreNext p → p.op = 1 → StepEvent s (finish { s with tout := w })
  /-- R183: an EXPK completes. -/
  | expkDone (p : Pending) (e d : Schedule) : s.coreNext p → p.op = 2 → keyLenLegal p.arg.toNat = true →
      expandKey (p.keyl.toList.take p.arg.toNat) = .ok (e, d) →
      StepEvent s (finishExpand p.arg { s with esched := e.flatten, dsched := d.flatten })
  /-- R184, R185: an ENC or a DEC completes. -/
  | blockDone (p : Pending) (b : Block) : s.coreNext p → p.op = 3 ∨ p.op = 4 → StepEvent s (finish { s with dout := b })
  /-- R187: the host writes CMD while BUSY = 1. -/
  | overrunWrite (v : Word) : s.hostNext (.write 0x000 4 v) → s.status.busy = true →
      StepEvent s (afterHost s (s.hpc + 1) (overrun s))
  /-- R202: the host's write to CMD is rejected. -/
  | rejectedWrite (v : Word) (e : ErrCode) : s.hostNext (.write 0x000 4 v) → s.status.busy = false →
      StepEvent s (afterHost s (s.hpc + 1) (raiseError e s))
  /-- R181: the host's write to CMD issues a command. -/
  | acceptedWrite (v : Word) (i : Instr) : s.hostNext (.write 0x000 4 v) → s.status.busy = false → decode v = .ok i →
      acceptable i s.status.kvalid = true → StepEvent s (afterHost s (s.hpc + 1) (accept i s))
  /-- R23: the host writes a key register. -/
  | keyWrite (off : Nat) (v : Word) (k : KeyRegs) : s.hostNext (.write off 4 v) → 0x010 ≤ off → off ≤ 0x02C →
      StepEvent s (afterHost s (s.hpc + 1) { s with key := k })
  /-- R24: the host writes a register of the input block. -/
  | dinWrite (off : Nat) (v : Word) (d : Block) : s.hostNext (.write off 4 v) → 0x030 ≤ off → off ≤ 0x03C →
      StepEvent s (afterHost s (s.hpc + 1) { s with din := d })
  /-- R220: the host resets the block. -/
  | hostReset : s.hostNext .reset → StepEvent s (afterHost s (s.hpc + 1) (resetInput s))
  /-- R55, R57, R79, R231: a read, a branch, a write that no register takes, or nothing at all. -/
  | quiet (reads : List (Nat × Word)) (hpc wait : Nat) : StepEvent s { s with reads := reads, hpc := hpc, wait := wait }

/-- The events of the core's step. -/
theorem stepEvent_of_exec {i : Instr} (hc : s.coreNext p) (hd : decodeFields p.op p.tsel p.arg = .ok i)
    (h : exec i s = .next t) : StepEvent s t := by
  obtain ⟨hop, -, -⟩ := fields_of_decodeFields hd
  rcases exec_core_cases hc h with ⟨tsel, tidx, T, rfl, -, rfl⟩ | ⟨len, e, d, rfl, hlen, hkey, rfl⟩ |
    ⟨len, rfl, -, rfl⟩ | ⟨len, rfl, -, rfl⟩
  · exact .tblDone p _ hc hop.symm
  · exact .expkDone p e d hc hop.symm hlen hkey
  · exact .blockDone p _ hc (.inl hop.symm)
  · exact .blockDone p _ hc (.inr hop.symm)

/-- The events of the host's write. -/
theorem stepEvent_of_write {off : Nat} {v : Word} (hn : s.hostNext (.write off 4 v)) (h : memWrite off v s = .next u) :
    StepEvent s (afterHost s (s.hpc + 1) u) := by
  rcases memWrite_cases off v s with ⟨rfl, e⟩ | ⟨i, hlo, hhi, -, e⟩ | ⟨i, hlo, hhi, -, e⟩ | ⟨-, -, -, e⟩ <;>
    rw [e] at h
  · rcases commandWrite_cases v hn.1 with ⟨hb, e⟩ | ⟨hb, c, e⟩ | ⟨hb, i, hd, ha, e⟩ <;> rw [e] at h <;> cases h
    · exact .overrunWrite v hn hb
    · exact .rejectedWrite v c hn hb
    · exact .acceptedWrite v i hn hb hd ha
  · cases h
    exact .keyWrite off v _ hn hlo hhi
  · cases h
    exact .dinWrite off v _ hn hlo hhi
  · cases h
    exact .quiet s.reads _ _

/-- R20, R60: every step that answers a next state is one of the events. -/
theorem stepEvent_of_step (h : step s = .next t) : StepEvent s t := by
  rcases step_cases h with ⟨p, i, hc, hd, he⟩ | ⟨off, name, -, -, rfl⟩ | ⟨off, v, u, hn, -, hw, rfl⟩ |
    ⟨name, mask, target, -, rfl⟩ | ⟨hn, rfl⟩ | ⟨-, -, rfl⟩
  · exact stepEvent_of_exec hc hd he
  · exact .quiet _ _ _
  · exact stepEvent_of_write hn hw
  · exact .quiet s.reads _ _
  · exact .hostReset hn
  · exact .quiet t.reads t.hpc t.wait

/-! ### The invariant -/

/-- The invariant speaks of STATUS, KINFO, PEND and the two stores only. -/
theorem State.Inv.congr (h : s.Inv) (hstatus : t.status = s.status) (hkinfo : t.kinfo = s.kinfo)
    (hpend : t.pend = s.pend) (hesched : t.esched = s.esched) (hdsched : t.dsched = s.dsched) : t.Inv where
  busy_pend := by rw [hstatus, hpend]; exact h.busy_pend
  pend_accepted := by rw [hstatus, hpend]; exact h.pend_accepted
  pend_err := by rw [hstatus, hpend]; exact h.pend_err
  kinfo_legal := by rw [hstatus, hkinfo]; exact h.kinfo_legal
  stores_legal := by rw [storesLegal, hstatus, hkinfo, hesched, hdsched]; exact h.stores_legal

/-- With nothing pending, the invariant asks only for BUSY = 0, KINFO and the stores. -/
theorem State.Inv.of_pend_none (hpend : t.pend = none) (hbusy : t.status.busy = false)
    (hkinfo : kinfoLegal t.status.kvalid t.kinfo) (hstores : storesLegal t) : t.Inv where
  busy_pend := by rw [hpend, hbusy]; rfl
  pend_accepted := by simp [hpend]
  pend_err := by simp [hpend]
  kinfo_legal := hkinfo
  stores_legal := hstores

/-- R21: nothing is pending while BUSY = 0. -/
theorem State.Inv.pend_eq_none (h : s.Inv) (hb : s.status.busy = false) : s.pend = none := by
  simpa [hb] using h.busy_pend

/-- R220: reset clears BUSY, PEND, KVALID, KINFO and the stores. -/
theorem reset_inv : State.reset.Inv := .of_pend_none rfl rfl ⟨rfl, rfl⟩ ⟨rfl, rfl⟩

/-- Settles O49: after reset nothing is pending, and KINFO and the stores are zero. -/
theorem resetMeetsTheInvariant : Obligations.ResetMeetsTheInvariant := reset_inv

theorem resetInput_inv (s : State) : (resetInput s).Inv := reset_inv.congr rfl rfl rfl rfl rfl

theorem afterHost_inv (h : u.Inv) (s : State) (pc : Nat) : (afterHost s pc u).Inv := h.congr rfl rfl rfl rfl rfl

/-- R186: the end of a completion clears BUSY with PEND. -/
theorem finish_inv (h : s.Inv) : (finish s).Inv := .of_pend_none rfl rfl h.kinfo_legal h.stores_legal

/-- R187: an overrun leaves ERR as it is. -/
theorem overrun_inv (h : s.Inv) : (overrun s).Inv where
  busy_pend := h.busy_pend
  pend_accepted := h.pend_accepted
  pend_err := h.pend_err
  kinfo_legal := h.kinfo_legal
  stores_legal := h.stores_legal

/-- R202: ERR is raised only while nothing is pending. -/
theorem raiseError_inv (h : s.Inv) (hb : s.status.busy = false) (e : ErrCode) : (raiseError e s).Inv :=
  .of_pend_none (h.pend_eq_none hb) hb h.kinfo_legal h.stores_legal

/-- R70, R75: a command that a word decodes to is what its own fields decode to. -/
theorem decodeFields_of_decode {v : Word} {i : Instr} (hd : decode v = .ok i) :
    decodeFields i.op i.tsel i.arg = .ok i := by
  by_cases hr : cmdRsvd v = 0
  · rw [decode_of_rsvd_zero v hr] at hd
    obtain ⟨hop, htsel, harg⟩ := fields_of_decodeFields hd
    rw [hop, htsel, harg, hd]
  · rw [decode_of_rsvd_ne_zero v hr] at hd
    cases hd

/-- R181: an issue latches the fields of the command it accepts. -/
theorem accept_inv (h : s.Inv) {i : Instr} (hd : decodeFields i.op i.tsel i.arg = .ok i)
    (ha : acceptable i s.status.kvalid = true) : (accept i s).Inv where
  busy_pend := rfl
  pend_accepted := by
    rintro _ ⟨rfl⟩
    exact ⟨i, hd, ha⟩
  pend_err := fun _ => rfl
  kinfo_legal := h.kinfo_legal
  stores_legal := h.stores_legal

/-- R73: the legal key lengths, as values of the length byte. -/
theorem keyLenLegal_toNat_cases {len : Byte} (h : keyLenLegal len.toNat = true) : len = 4 ∨ len = 6 ∨ len = 8 := by
  simpa [keyLenLegal_toNat, or_assoc] using h

/-- R183, R29: KINFO after an EXPK shows NK = LEN and NR = LEN + 6. -/
theorem kinfoLegal_of_keyLenLegal {len : Byte} (h : keyLenLegal len.toNat = true) :
    kinfoLegal true { nk := len.setWidth 4, nr := len.setWidth 4 + 6 } := by
  rcases keyLenLegal_toNat_cases h with rfl | rfl | rfl <;> simp [kinfoLegal]

/-- R183: the key that an EXPK expands has as many words as NK then shows. -/
theorem length_take_keyl {len : Byte} (h : keyLenLegal len.toNat = true) (k : KeyRegs) :
    (k.toList.take len.toNat).length = (len.setWidth 4).toNat := by
  rw [List.length_take, Vector.length_toList]
  rcases keyLenLegal_toNat_cases h with rfl | rfl | rfl <;> rfl

/-- R183: a completing EXPK leaves the two schedules of one key, whatever the stores held. -/
theorem finishExpand_inv {len : Byte} {k : KeyRegs} {e d : Schedule} (hlen : keyLenLegal len.toNat = true)
    (hkey : expandKey (k.toList.take len.toNat) = .ok (e, d)) (s : State) :
    (finishExpand len { s with esched := e.flatten, dsched := d.flatten }).Inv :=
  .of_pend_none rfl rfl (kinfoLegal_of_keyLenLegal hlen) ⟨_, e, d, length_take_keyl hlen k, hkey, rfl, rfl⟩

/-- Settles O50, event by event: each event's operation keeps the invariant, and an EXPK's completion establishes it. -/
theorem stepKeepsTheInvariant : Obligations.StepKeepsTheInvariant := by
  intro s t h hstep
  cases stepEvent_of_step hstep with
  | tblDone p w hc hop => exact finish_inv (h.congr rfl rfl rfl rfl rfl)
  | expkDone p e d hc hop hlen hkey => exact finishExpand_inv hlen hkey s
  | blockDone p b hc hop => exact finish_inv (h.congr rfl rfl rfl rfl rfl)
  | overrunWrite v hn hb => exact afterHost_inv (overrun_inv h) s _
  | rejectedWrite v e hn hb => exact afterHost_inv (raiseError_inv h hb e) s _
  | acceptedWrite v i hn hb hd ha => exact afterHost_inv (accept_inv h (decodeFields_of_decode hd) ha) s _
  | keyWrite | dinWrite | quiet => exact h.congr rfl rfl rfl rfl rfl
  | hostReset hn => exact afterHost_inv (resetInput_inv s) s _

/-! ### Who writes which register (R23 to R31) -/

/-- Settles O52: for each result, the one kind of event that writes it. -/
theorem resultsChangeOnlyAtTheirCompletion : Obligations.ResultsChangeOnlyAtTheirCompletion := by
  intro s t hstep hreset
  have event := stepEvent_of_step hstep
  clear hstep
  refine ⟨fun hne => ?dout, fun hne => ?tout, fun hne => ?stores⟩
  case dout =>
    cases event with
    | blockDone p b hc hop => exact ⟨p, hc, hop⟩
    | hostReset hn => exact absurd hn hreset
    | _ => simp at hne
  case tout =>
    cases event with
    | tblDone p w hc hop => exact ⟨p, hc, hop⟩
    | hostReset hn => exact absurd hn hreset
    | _ => simp at hne
  case stores =>
    cases event with
    | expkDone p e d hc hop => exact ⟨p, hc, hop⟩
    | hostReset hn => exact absurd hn hreset
    | _ => simp at hne

/-- Settles O53: for each input register, the one kind of event that writes it. -/
theorem onlyTheHostWritesKeyAndDin : Obligations.OnlyTheHostWritesKeyAndDin := by
  intro s t hstep hreset
  have event := stepEvent_of_step hstep
  clear hstep
  refine ⟨fun hne => ?key, fun hne => ?din⟩
  case key =>
    cases event with
    | keyWrite off v k hn hlo hhi => exact ⟨off, v, hn, hlo, hhi⟩
    | hostReset hn => exact absurd hn hreset
    | _ => simp at hne
  case din =>
    cases event with
    | dinWrite off v d hn hlo hhi => exact ⟨off, v, hn, hlo, hhi⟩
    | hostReset hn => exact absurd hn hreset
    | _ => simp at hne

/-! ### What sets and clears each flag (R28, R34) -/

theorem StepEvent.busy_set (event : StepEvent s t) (ht : t.status.busy = true) (hs : s.status.busy = false) :
    ∃ v i, s.hostNext (.write 0x000 4 v) ∧ decode v = .ok i ∧ acceptable i s.status.kvalid = true := by
  cases event with
  | acceptedWrite v i hn hb hd ha => exact ⟨v, i, hn, hd, ha⟩
  | _ => simp [State.reset, hs] at ht

theorem StepEvent.busy_cleared (event : StepEvent s t) (ht : t.status.busy = false) (hs : s.status.busy = true) :
    s.hostNext .reset ∨ ∃ p, s.coreNext p := by
  cases event with
  | tblDone p w hc => exact .inr ⟨p, hc⟩
  | expkDone p e d hc => exact .inr ⟨p, hc⟩
  | blockDone p b hc => exact .inr ⟨p, hc⟩
  | hostReset hn => exact .inl hn
  | _ => simp [hs] at ht

theorem StepEvent.kvalid_set (event : StepEvent s t) (ht : t.status.kvalid = true) (hs : s.status.kvalid = false) :
    ∃ p, s.coreNext p ∧ p.op = 2 := by
  cases event with
  | expkDone p e d hc hop => exact ⟨p, hc, hop⟩
  | _ => simp [State.reset, hs] at ht

theorem StepEvent.kvalid_cleared (event : StepEvent s t) (ht : t.status.kvalid = false) (hs : s.status.kvalid = true) :
    s.hostNext .reset := by
  cases event with
  | hostReset hn => exact hn
  | _ => simp [hs] at ht

theorem StepEvent.ovr_set (event : StepEvent s t) (ht : t.status.ovr = true) (hs : s.status.ovr = false) :
    s.status.busy = true ∧ ∃ v, s.hostNext (.write 0x000 4 v) := by
  cases event with
  | overrunWrite v hn hb => exact ⟨hb, v, hn⟩
  | _ => simp [State.reset, hs] at ht

theorem StepEvent.ovr_cleared (event : StepEvent s t) (ht : t.status.ovr = false) (hs : s.status.ovr = true) :
    s.hostNext .reset ∨ (s.status.busy = false ∧ ∃ v, s.hostNext (.write 0x000 4 v)) := by
  cases event with
  | rejectedWrite v e hn hb => exact .inr ⟨hb, v, hn⟩
  | acceptedWrite v i hn hb => exact .inr ⟨hb, v, hn⟩
  | hostReset hn => exact .inl hn
  | _ => simp [hs] at ht

theorem StepEvent.err_changed (event : StepEvent s t) (hne : t.status.err ≠ s.status.err) :
    s.hostNext .reset ∨ (s.status.busy = false ∧ ∃ v, s.hostNext (.write 0x000 4 v)) := by
  cases event with
  | rejectedWrite v e hn hb => exact .inr ⟨hb, v, hn⟩
  | acceptedWrite v i hn hb => exact .inr ⟨hb, v, hn⟩
  | hostReset hn => exact .inl hn
  | _ => simp at hne

/-- Settles O54, flag by flag. -/
theorem flagsChangeOnlyAtTheirEvents : Obligations.FlagsChangeOnlyAtTheirEvents := by
  intro s t hstep
  have event := stepEvent_of_step hstep
  exact ⟨event.busy_set, event.busy_cleared, event.kvalid_set, event.kvalid_cleared, event.ovr_set, event.ovr_cleared,
    event.err_changed⟩

end Sys2Proof.Machine
end

section
/-! PROOFS. The memory window (spec/20_memory.md): which transactions are refused, what each offset reads as, and what a
write to it does, of the register map and then of the host's step. -/

namespace Sys2Proof.Machine

variable {s : State} {r : Refusal}

/-! ### Which steps are refused (R51) -/

/-- R188: every command has a meaning. -/
theorem exec_ne_refused (i : Instr) (s : State) (r : Refusal) : exec i s ≠ .refused r := by
  intro h
  cases hturn : s.coreTurn with
  | false =>
    rw [exec_host i hturn] at h
    cases h
  | true =>
    obtain ⟨p, hc⟩ := coreNext_of_coreTurn hturn
    have hs := completing_eq_some_iff.2 hc
    cases i with
    | tbl tsel tidx =>
      simp only [exec, execTbl, hs] at h
      split at h <;> cases h
    | expk len =>
      simp only [exec, execExpk, hs] at h
      split at h
      · split at h <;> cases h
      · cases h
    | enc len =>
      simp only [exec, execEnc, hs] at h
      split at h <;> cases h
    | dec len =>
      simp only [exec, execDec, hs] at h
      split at h <;> cases h

/-- R186: a completion is no transaction. -/
theorem coreStep_ne_refused (p : Pending) (s : State) (r : Refusal) : coreStep p s ≠ .refused r := by
  unfold coreStep
  cases decodeFields p.op p.tsel p.arg with
  | ok i => exact exec_ne_refused i s r
  | error e => nofun

theorem commandWrite_ne_refused (v : Word) (s : State) (r : Refusal) : commandWrite v s ≠ .refused r := by
  unfold commandWrite
  cases decode v with
  | ok i => exact exec_ne_refused i s r
  | error e => nofun

/-- R53: a write that reaches the register map is not refused. -/
theorem memWrite_ne_refused (off : Nat) (v : Word) (s : State) (r : Refusal) : memWrite off v s ≠ .refused r := by
  rcases memWrite_cases off v s with ⟨-, e⟩ | ⟨i, -, -, -, e⟩ | ⟨i, -, -, -, e⟩ | ⟨-, -, -, e⟩ <;> rw [e]
  · exact commandWrite_ne_refused v s r
  all_goals nofun

theorem mapNext_eq_refused_iff {f : State → State} {o : Result} : mapNext f o = .refused r ↔ o = .refused r := by
  cases o <;> simp [mapNext]

theorem hostRead_eq_refused_iff {off n name : Nat} :
    hostRead off n name s = .refused r ↔ ¬ legalAccess off n = true ∧ r = .badAccess off n := by
  unfold hostRead
  split
  · next h => simp [h]
  · next h => simp [h, eq_comm]

theorem hostWrite_eq_refused_iff {off n : Nat} {v : Word} :
    hostWrite off n v s = .refused r ↔ ¬ legalAccess off n = true ∧ r = .badAccess off n := by
  unfold hostWrite
  split
  · next h => simp [h, memWrite_ne_refused]
  · next h => simp [h, eq_comm]

/-- R51: of the host's steps only a bad access is refused. -/
theorem hostStep_eq_refused_iff {st : HostStmt} :
    hostStep st s = .refused r ↔ ∃ off n, r = .badAccess off n ∧ ¬ legalAccess off n = true ∧
      ((∃ name, st = .read off n name) ∨ ∃ v, st = .write off n v) := by
  cases st with
  | read off n name =>
    rw [hostStep, mapNext_eq_refused_iff, hostRead_eq_refused_iff]
    grind
  | write off n v =>
    rw [hostStep, mapNext_eq_refused_iff, hostWrite_eq_refused_iff]
    grind
  | bnz name mask target => simp [hostStep]
  | reset => simp [hostStep]

/-- R20: the core's step is next, or the host's, or neither agent has one. -/
theorem coreNext_or_hostNext_or_idle (s : State) :
    (∃ p, s.coreNext p) ∨ (∃ st, s.hostNext st) ∨ (s.completing = none ∧ s.nextStmt = none) := by
  cases hturn : s.coreTurn with
  | true => exact .inl (coreNext_of_coreTurn hturn)
  | false =>
    cases hst : s.nextStmt with
    | some st => exact .inr (.inl ⟨st, hturn, hst⟩)
    | none => exact .inr (.inr ⟨completing_eq_none hturn, rfl⟩)

/-- A refusal is the host's. -/
theorem step_eq_refused_iff : step s = .refused r ↔ ∃ st, s.hostNext st ∧ hostStep st s = .refused r := by
  constructor
  · intro h
    rcases coreNext_or_hostNext_or_idle s with ⟨p, hc⟩ | ⟨st, hn⟩ | ⟨hp, hst⟩
    · exact absurd (step_of_coreNext hc ▸ h) (coreStep_ne_refused p s r)
    · exact ⟨st, hn, step_of_hostNext hn ▸ h⟩
    · rw [step, hp, hst] at h
      cases h
  · rintro ⟨st, hn, h⟩
    rw [step_of_hostNext hn, h]

/-- Settles O47: a refusal is of the host's step, and that step is a transaction the window does not have. -/
theorem onlyBadAccessesAreRefused : Obligations.OnlyBadAccessesAreRefused := by
  intro s r
  simp only [step_eq_refused_iff, hostStep_eq_refused_iff, ← legalAccess_iff]
  constructor
  · rintro ⟨_, hn, off, n, hr, hbad, ⟨name, rfl⟩ | ⟨v, rfl⟩⟩
    · exact ⟨off, n, hr, hbad, .inl ⟨name, hn⟩⟩
    · exact ⟨off, n, hr, hbad, .inr ⟨v, hn⟩⟩
  · rintro ⟨off, n, hr, hbad, ⟨name, hn⟩ | ⟨v, hn⟩⟩
    · exact ⟨_, hn, off, n, hr, hbad, .inl ⟨name, rfl⟩⟩
    · exact ⟨_, hn, off, n, hr, hbad, .inr ⟨v, rfl⟩⟩

/-! ### The register map (R52 to R56) -/

/-- R54: at a register's offset stands that register. -/
theorem regAt_of_regOffset {reg : Reg} {off : Nat} (h : regOffset reg = some off) : regAt off = reg := by
  cases reg with
  | cmd | status | kinfo | tout => cases h; rfl
  | key i | din i | dout i | esched i | dsched i =>
    cases h
    simp (disch := omega) only [regAt, if_neg, dif_neg, dif_pos, Nat.add_sub_cancel_left, Nat.mul_div_cancel_left]
  | reserved => cases h

/-- R54: no register stands between DOUT and ESCHED, between the stores, or past DSCHED. -/
theorem regAt_reserved {off : Nat}
    (h : (0x050 ≤ off ∧ off ≤ 0x0FC) ∨ (0x1F0 ≤ off ∧ off ≤ 0x1FC) ∨ 0x2F0 ≤ off) : regAt off = .reserved := by
  simp (disch := omega) only [regAt, if_neg, dif_neg]

theorem memRead_of_regOffset {reg : Reg} {off : Nat} (h : regOffset reg = some off) (s : State) :
    memRead off s = readReg reg s := by
  rw [memRead, regAt_of_regOffset h]

theorem flagBit_eq_setWidth_ofBool (b : Bool) : flagBit b = (BitVec.ofBool b).setWidth 32 := by
  cases b <;> rfl

/-- Settles O43: each offset is a register's own, which reads as that register, or is reserved. -/
theorem readsFollowTheRegisterMap : Obligations.ReadsFollowTheRegisterMap := by
  intro s
  refine ⟨rfl, ?status, rfl, rfl, fun i hi => ?key, fun i hi => ⟨?din, ?dout⟩, fun i hi => ⟨?esched, ?dsched⟩,
    fun off h => ?reserved⟩
  case status =>
    simp only [← flagBit_eq_setWidth_ofBool]
    rfl
  case key => exact memRead_of_regOffset (reg := .key ⟨i, hi⟩) rfl s
  case din => exact memRead_of_regOffset (reg := .din ⟨i, hi⟩) rfl s
  case dout => exact memRead_of_regOffset (reg := .dout ⟨i, hi⟩) rfl s
  case esched => exact memRead_of_regOffset (reg := .esched ⟨i, hi⟩) rfl s
  case dsched => exact memRead_of_regOffset (reg := .dsched ⟨i, hi⟩) rfl s
  case reserved => rw [memRead, regAt_reserved h, readReg]

/-- R53: a write to KEY[i] stores there. -/
theorem memWrite_key (i : Nat) (hi : i < 8) (v : Word) (s : State) :
    memWrite (0x010 + 4 * i) v s = .next { s with key := s.key.set i v } := by
  rw [memWrite, regAt_of_regOffset (reg := .key ⟨i, hi⟩) rfl]
  rfl

/-- R53: a write to DIN[i] stores there. -/
theorem memWrite_din (i : Nat) (hi : i < 4) (v : Word) (s : State) :
    memWrite (0x030 + 4 * i) v s = .next { s with din := s.din.set i v } := by
  rw [memWrite, regAt_of_regOffset (reg := .din ⟨i, hi⟩) rfl]
  rfl

/-- R55, R56: a write outside CMD, KEY and DIN has no effect. -/
theorem memWrite_elsewhere {off : Nat} (hcmd : off ≠ 0x000) (hkey : ¬ (0x010 ≤ off ∧ off ≤ 0x02C))
    (hdin : ¬ (0x030 ≤ off ∧ off ≤ 0x03C)) (v : Word) (s : State) : memWrite off v s = .next s := by
  rcases memWrite_cases off v s with ⟨h, -⟩ | ⟨i, hlo, hhi, -⟩ | ⟨i, hlo, hhi, -⟩ | ⟨-, -, -, e⟩
  · exact absurd h hcmd
  · exact absurd ⟨hlo, hhi⟩ hkey
  · exact absurd ⟨hlo, hhi⟩ hdin
  · exact e

/-- Settles O46, one lemma for each kind of offset. -/
theorem writesFollowTheRegisterMap : Obligations.WritesFollowTheRegisterMap :=
  fun s v => ⟨rfl, fun i hi => memWrite_key i hi v s, fun i hi => memWrite_din i hi v s,
    fun _ _ hcmd hkey hdin => memWrite_elsewhere hcmd hkey hdin v s⟩

/-! ### The host's read and write at the step (R20, R57) -/

/-- R51, R52: the step of a legal read. -/
theorem step_of_read {off name : Nat} (hn : s.hostNext (.read off 4 name)) (hoff : off % 4 = 0) (hmax : off ≤ 0xFFC) :
    step s = .next (afterHost s (s.hpc + 1) { s with reads := (name, memRead off s) :: s.reads }) := by
  rw [step_of_hostNext hn, hostStep, hostRead, if_pos (legalAccess_iff.2 ⟨rfl, hoff, hmax⟩), mapNext]

/-- R51, R53: the step of a legal write that the register map takes. -/
theorem step_of_write {off : Nat} {v : Word} {t : State} (hn : s.hostNext (.write off 4 v)) (hoff : off % 4 = 0)
    (hmax : off ≤ 0xFFC) (hw : memWrite off v s = .next t) : step s = .next (afterHost s (s.hpc + 1) t) := by
  rw [step_of_hostNext hn, hostStep, hostWrite, if_pos (legalAccess_iff.2 ⟨rfl, hoff, hmax⟩), hw, mapNext]

/-- Settles O45: the step is the host's legal read, which binds the name alone. -/
theorem readsHaveNoSideEffect : Obligations.ReadsHaveNoSideEffect :=
  fun _ _ _ hn hoff hmax => step_of_read hn hoff hmax

/-- Settles O58: the step is the host's legal write, and the register map says what it stores. -/
theorem hostWriteStepStoresTheWord : Obligations.HostWriteStepStoresTheWord := by
  intro s v
  refine ⟨fun i hi hn => ?key, fun i hi hn => ?din, fun off hn hoff hmax hcmd hkey hdin => ?elsewhere⟩
  case key => exact step_of_write hn (by omega) (by omega) (memWrite_key i hi v s)
  case din => exact step_of_write hn (by omega) (by omega) (memWrite_din i hi v s)
  case elsewhere => exact step_of_write hn hoff hmax (memWrite_elsewhere hcmd hkey hdin v s)

end Sys2Proof.Machine
end


section
/-! PROOFS. The encoding (spec/30_encoding.md R70 to R78): the decoder answers with a command exactly for the
well-formed command whose fields the word has, RSVD zero; and what the statements about the decoder derive from that. -/

namespace Sys2Proof

variable {op tsel : BitVec 4} {arg : Byte} {w : Word} {i : Instr}

/-! ### What the decoder answers with (R75) -/

/-- The field decoder answers with the well-formed command that has these fields, and with no other. -/
theorem decodeFields_eq_ok_iff :
    decodeFields op tsel arg = .ok i ↔ i.wellFormed = true ∧ i.op = op ∧ i.tsel = tsel ∧ i.arg = arg := by
  constructor
  · intro h
    refine ⟨?_, fields_of_decodeFields h⟩
    rcases decodeFields_cases h with ⟨-, ht, rfl⟩ | ⟨-, -, rfl⟩ | ⟨-, -, rfl⟩ | ⟨-, -, rfl⟩
    · exact decide_eq_true ht
    all_goals rfl
  · rintro ⟨hwf, rfl, rfl, rfl⟩
    cases i with
    | tbl tsel tidx => exact if_pos (of_decide_eq_true hwf)
    | expk len | enc len | dec len => rfl

/-- R75: a word decodes to a command exactly when its RSVD is zero and its fields are that command's. -/
theorem decode_eq_ok_iff :
    decode w = .ok i ↔
      cmdRsvd w = 0 ∧ i.wellFormed = true ∧ i.op = cmdOp w ∧ i.tsel = cmdTsel w ∧ i.arg = cmdArg w := by
  by_cases hr : cmdRsvd w = 0
  · rw [decode_of_rsvd_zero w hr, decodeFields_eq_ok_iff]
    exact (and_iff_right hr).symm
  · rw [decode_of_rsvd_ne_zero w hr]
    exact ⟨nofun, fun h => absurd h.1 hr⟩

/-- Settles O1: the fields of an encoding are the command's own. -/
theorem decodeOfEncodeIsTheCommand : Obligations.DecodeOfEncodeIsTheCommand := by
  intro i hwf
  obtain ⟨hop, htsel, harg, hrsvd⟩ := Laws.EncodeFields.of_fields i
  exact decode_eq_ok_iff.2 ⟨hrsvd, hwf, hop.symm, htsel.symm, harg.symm⟩

/-- Settles O2: a word with RSVD zero is made up of its three fields, which are the command's. -/
theorem encodeOfDecodeIsTheWord : Obligations.EncodeOfDecodeIsTheWord := by
  intro w i h
  obtain ⟨hrsvd, hwf, hop, htsel, harg⟩ := decode_eq_ok_iff.1 h
  refine ⟨?_, hwf⟩
  rw [encode_eq_fieldsWord, hop, htsel, harg, fieldsWord_of_fields w hrsvd]

/-- R74, R76: which words decode, by their fields. -/
theorem exists_decode_eq_ok_iff :
    (∃ i, decode w = .ok i) ↔ cmdRsvd w = 0 ∧
      ((cmdOp w = 1 ∧ cmdTsel w ≤ 9) ∨ (cmdOp w = 2 ∧ cmdTsel w = 0) ∨ (cmdOp w = 3 ∧ cmdTsel w = 0) ∨
        (cmdOp w = 4 ∧ cmdTsel w = 0)) := by
  constructor
  · rintro ⟨i, h⟩
    obtain ⟨hrsvd, hwf, hop, htsel, -⟩ := decode_eq_ok_iff.1 h
    rw [← hop, ← htsel]
    refine ⟨hrsvd, ?_⟩
    cases i with
    | tbl tsel tidx => exact .inl ⟨rfl, of_decide_eq_true hwf⟩
    | expk len => exact .inr (.inl ⟨rfl, rfl⟩)
    | enc len => exact .inr (.inr (.inl ⟨rfl, rfl⟩))
    | dec len => exact .inr (.inr (.inr ⟨rfl, rfl⟩))
  · rintro ⟨hrsvd, ⟨hop, ht⟩ | ⟨hop, ht⟩ | ⟨hop, ht⟩ | ⟨hop, ht⟩⟩
    · exact ⟨.tbl (cmdTsel w) (cmdArg w), decode_eq_ok_iff.2 ⟨hrsvd, decide_eq_true ht, hop.symm, rfl, rfl⟩⟩
    · exact ⟨.expk (cmdArg w), decode_eq_ok_iff.2 ⟨hrsvd, rfl, hop.symm, ht.symm, rfl⟩⟩
    · exact ⟨.enc (cmdArg w), decode_eq_ok_iff.2 ⟨hrsvd, rfl, hop.symm, ht.symm, rfl⟩⟩
    · exact ⟨.dec (cmdArg w), decode_eq_ok_iff.2 ⟨hrsvd, rfl, hop.symm, ht.symm, rfl⟩⟩

/-- R75: the decoder is total: a word is illegal exactly when it decodes to no command. -/
theorem exists_decode_eq_error_iff : (∃ e, decode w = .error e) ↔ ¬ ∃ i, decode w = .ok i := by
  cases decode w <;> simp

/-! ### The decoder's rows as masks and matches (R75) -/

theorem cmdOp_and (v w : Word) : cmdOp (v &&& w) = cmdOp v &&& cmdOp w := BitVec.extractLsb'_and
theorem cmdTsel_and (v w : Word) : cmdTsel (v &&& w) = cmdTsel v &&& cmdTsel w := BitVec.extractLsb'_and
theorem cmdArg_and (v w : Word) : cmdArg (v &&& w) = cmdArg v &&& cmdArg w := BitVec.extractLsb'_and
theorem cmdRsvd_and (v w : Word) : cmdRsvd (v &&& w) = cmdRsvd v &&& cmdRsvd w := BitVec.extractLsb'_and

/-- R70: a word is made up of three fields exactly when they are its fields and its RSVD is zero. -/
theorem eq_fieldsWord_iff :
    w = fieldsWord op tsel arg ↔ cmdRsvd w = 0 ∧ cmdOp w = op ∧ cmdTsel w = tsel ∧ cmdArg w = arg := by
  constructor
  · rintro rfl
    exact ⟨cmdRsvd_fieldsWord .., cmdOp_fieldsWord .., cmdTsel_fieldsWord .., cmdArg_fieldsWord ..⟩
  · rintro ⟨hrsvd, rfl, rfl, rfl⟩
    exact (fieldsWord_of_fields w hrsvd).symm

/-- R75: the mask of TBL compares RSVD and OP. -/
theorem and_tblMask_eq_iff {m : Word} (hm : m = fieldsWord op 0 0) :
    w &&& 0xFFFF000F = m ↔ cmdRsvd w = 0 ∧ cmdOp w = op := by
  rw [hm, eq_fieldsWord_iff, cmdRsvd_and, cmdOp_and, cmdTsel_and, cmdArg_and,
    show cmdRsvd 0xFFFF000F = BitVec.allOnes 16 by decide, show cmdOp 0xFFFF000F = BitVec.allOnes 4 by decide,
    show cmdTsel 0xFFFF000F = 0 by decide, show cmdArg 0xFFFF000F = 0 by decide]
  simp only [BitVec.and_allOnes, BitVec.ofNat_eq_ofNat, BitVec.and_zero, and_true]

/-- R75: the mask of EXPK, ENC and DEC compares TSEL too. -/
theorem and_lenMask_eq_iff {m : Word} (hm : m = fieldsWord op 0 0) :
    w &&& 0xFFFF00FF = m ↔ cmdRsvd w = 0 ∧ cmdOp w = op ∧ cmdTsel w = 0 := by
  rw [hm, eq_fieldsWord_iff, cmdRsvd_and, cmdOp_and, cmdTsel_and, cmdArg_and,
    show cmdRsvd 0xFFFF00FF = BitVec.allOnes 16 by decide, show cmdOp 0xFFFF00FF = BitVec.allOnes 4 by decide,
    show cmdTsel 0xFFFF00FF = BitVec.allOnes 4 by decide, show cmdArg 0xFFFF00FF = 0 by decide]
  simp only [BitVec.and_allOnes, BitVec.ofNat_eq_ofNat, BitVec.and_zero, and_true]

/-- R75, the row of TBL. -/
theorem decode_eq_tbl_iff {m : Word} (hm : m = fieldsWord 1 0 0) :
    decode w = .ok (.tbl tsel arg) ↔ w &&& 0xFFFF000F = m ∧ tsel ≤ 9 ∧ tsel = cmdTsel w ∧ arg = cmdArg w := by
  rw [decode_eq_ok_iff, and_tblMask_eq_iff hm, Instr.wellFormed, decide_eq_true_iff, Instr.op, Instr.tsel, Instr.arg,
    @eq_comm _ 1]
  tauto

/-- R75, the rows of EXPK, ENC and DEC: their one operand is a length, and their TSEL is zero. -/
theorem decode_eq_len_iff {m : Word} (hm : m = fieldsWord i.op 0 0) (hwf : i.wellFormed = true) (htsel : i.tsel = 0) :
    decode w = .ok i ↔ w &&& 0xFFFF00FF = m ∧ i.arg = cmdArg w := by
  rw [decode_eq_ok_iff, and_lenMask_eq_iff hm, hwf, htsel, @eq_comm _ i.op, @eq_comm _ 0]
  tauto

/-- Settles O3, row by row; a word that no row matches is one that decodes to no command. -/
theorem decoderRowsAreMaskAndMatch : Obligations.DecoderRowsAreMaskAndMatch := by
  intro w
  have mtbl : (0x00000001 : Word) = fieldsWord 1 0 0 := by decide
  have mexpk : (0x00000002 : Word) = fieldsWord 2 0 0 := by decide
  have menc : (0x00000003 : Word) = fieldsWord 3 0 0 := by decide
  have mdec : (0x00000004 : Word) = fieldsWord 4 0 0 := by decide
  refine ⟨fun tsel tidx => decode_eq_tbl_iff mtbl, fun len => decode_eq_len_iff (i := .expk len) mexpk rfl rfl,
    fun len => decode_eq_len_iff (i := .enc len) menc rfl rfl,
    fun len => decode_eq_len_iff (i := .dec len) mdec rfl rfl, ?illegal⟩
  case illegal =>
    rw [exists_decode_eq_error_iff, exists_decode_eq_ok_iff, and_tblMask_eq_iff mtbl, and_lenMask_eq_iff mexpk,
      and_lenMask_eq_iff menc, and_lenMask_eq_iff mdec, ← cmdTsel]
    tauto

/-! ### The illegal words (R76) -/

/-- R76: the illegal words, by their fields. -/
theorem exists_decode_eq_error_iff_fields :
    (∃ e, decode w = .error e) ↔
      cmdRsvd w ≠ 0 ∨ (cmdOp w = 0 ∨ 5 ≤ (cmdOp w).toNat) ∨ (cmdOp w = 1 ∧ 0xA ≤ (cmdTsel w).toNat) ∨
        (2 ≤ (cmdOp w).toNat ∧ (cmdOp w).toNat ≤ 4 ∧ cmdTsel w ≠ 0) := by
  rw [exists_decode_eq_error_iff, exists_decode_eq_ok_iff]
  simp only [ne_eq, BitVec.toNat_eq, BitVec.le_def, BitVec.ofNat_eq_ofNat, BitVec.toNat_ofNat]
  omega

/-- R76, R202: an illegal word written while BUSY = 0 raises IllegalCommand. -/
theorem commandWrite_of_decode_error {e : Illegal} {s : Machine.State} (h : decode w = .error e)
    (hb : s.status.busy = false) : Machine.commandWrite w s = .next (Machine.raiseError .illegalCommand s) := by
  rw [Machine.commandWrite, h]
  simp [Machine.issue, hb]

/-- Settles O4: the illegal words are those that decode to no command, and a command write only raises the error. -/
theorem illegalWordsAreListedAndOnlyReported : Obligations.IllegalWordsAreListedAndOnlyReported :=
  ⟨fun _ => exists_decode_eq_error_iff_fields, fun _ _ _ h hb => commandWrite_of_decode_error h hb⟩

/-- Settles O5: fixed words, by running the decoder. -/
theorem wordsWrittenOutDecode : Obligations.WordsWrittenOutDecode :=
  ⟨rfl, rfl, rfl, rfl, rfl⟩

end Sys2Proof
end

section
/-! PROOFS. The assembler of commands and of host programs (spec/30_encoding.md R78 to R80), and the host's branch. -/

namespace Sys2Proof.Machine

/-! ### Commands (R78) -/

theorem asmByte_of_le {n : Nat} (h : n ≤ 255) : asmByte n = some (BitVec.ofNat 8 n) := if_pos h

theorem asmTsel_number_of_le {n : Nat} (h : n ≤ 9) : asmTsel (.number n) = some (BitVec.ofNat 4 n) := if_pos h

/-- R72: the tables in the order of their numbers. -/
def tableNames : List Table := [.sbox, .invSbox, .t0, .t1, .t2, .t3, .u0, .u1, .u2, .u3]

/-- R72: a table's name stands for its number. -/
theorem tselOfTable_of_getElem? {n : Nat} {t : Table} (hn : n ≤ 9) (ht : tableNames[n]? = some t) :
    tselOfTable t = BitVec.ofNat 4 n := by
  have htsels : tableNames.map tselOfTable = (List.range 10).map (BitVec.ofNat 4) := by decide
  have hget := congrArg (·[n]?) htsels
  simpa [ht, show n < 10 by omega] using hget

theorem asmTsel_named_eq_number {n : Nat} {t : Table} (hn : n ≤ 9) (ht : tableNames[n]? = some t) :
    asmTsel (.named t) = asmTsel (.number n) := by
  rw [asmTsel_number_of_le hn, asmTsel, tselOfTable_of_getElem? hn ht]

/-- Settles O6: the assembler's ranges admit the operands, and no field loses a bit in the word. -/
theorem assembledWordIsTheFieldsOred : Obligations.AssembledWordIsTheFieldsOred := by
  intro n a hn ha
  have htsel : (BitVec.ofNat 4 n).setWidth 32 = BitVec.ofNat 32 n :=
    BitVec.setWidth_ofNat_of_le_of_lt (by decide) (by omega)
  have harg : (BitVec.ofNat 8 a).setWidth 32 = BitVec.ofNat 32 a :=
    BitVec.setWidth_ofNat_of_le_of_lt (by decide) (by omega)
  refine ⟨?numbered, fun t ht => ?named, ?_, ?_, ?_⟩
  case numbered =>
    simp [asmWord, asmInstr, asmTsel_number_of_le hn, asmByte_of_le ha, encode, Instr.op, Instr.tsel, Instr.arg, htsel,
      harg]
  case named => rw [asmWord, asmWord, asmInstr, asmInstr, asmTsel_named_eq_number hn ht]
  all_goals simp [asmWord, asmInstr, asmByte_of_le ha, encode, Instr.op, Instr.tsel, Instr.arg, harg]

/-! ### Host programs (R79, R80) -/

/-- R80: the lines of SETKEY for the words `ks`, from KEY[i] on. -/
def keyLines (i : Nat) (ks : List Word) : List HostLine :=
  (ks.zipIdx i).map fun (k, i) => .wr (.key (Fin.ofNat 8 i)) k

/-- R79: the transactions of those lines. -/
def keyWrites (i : Nat) (ks : List Word) : List HostStmt :=
  (ks.zipIdx i).map fun (k, i) => .write (0x010 + 4 * i) 4 k

@[simp] theorem keyLines_cons (i : Nat) (k : Word) (ks : List Word) :
    keyLines i (k :: ks) = .wr (.key (Fin.ofNat 8 i)) k :: keyLines (i + 1) ks := rfl

@[simp] theorem keyWrites_cons (i : Nat) (k : Word) (ks : List Word) :
    keyWrites i (k :: ks) = .write (0x010 + 4 * i) 4 k :: keyWrites (i + 1) ks := rfl

theorem setKeyLines_of_le {ks : List Word} (h : ks.length ≤ 8) : setKeyLines ks = some (keyLines 0 ks) := if_pos h

/-- The lines of SETKEY hold no label. -/
theorem labelsOf_keyLines_append (i : Nat) (ks : List Word) (ls : List HostLine) :
    labelsOf (keyLines i ks ++ ls) = labelsOf ls := by
  induction ks generalizing i with
  | nil => rfl
  | cons k ks ih => exact ih (i + 1)

/-- Each line of SETKEY is one step before the labels that follow. -/
theorem labelPos_keyLines_append (l : HostLabel) (n i : Nat) (ks : List Word) (ls : List HostLine) :
    labelPos l n (keyLines i ks ++ ls) = labelPos l (n + ks.length) ls := by
  induction ks generalizing i n with
  | nil => rfl
  | cons k ks ih => rw [List.length_cons, Nat.add_comm _ 1, ← Nat.add_assoc]; exact ih (n + 1) (i + 1)

/-- R54, R79: each line of SETKEY is the write to its key register. -/
theorem resolveLines_keyLines_append (all : List HostLine) {i : Nat} {ks : List Word} (h : i + ks.length ≤ 8)
    (ls : List HostLine) :
    resolveLines all (keyLines i ks ++ ls) = (resolveLines all ls).map fun rest => keyWrites i ks ++ rest := by
  induction ks generalizing i with
  | nil => simp [keyLines, keyWrites]
  | cons k ks ih =>
    rw [List.length_cons] at h
    have hreg : regOffset (.key (Fin.ofNat 8 i)) = some (0x010 + 4 * i) := by
      simp [regOffset, Nat.mod_eq_of_lt (show i < 8 by omega)]
    simp only [keyLines_cons, keyWrites_cons, List.cons_append, resolveLines, hreg, Option.bind_some,
      ih (i := i + 1) (by omega), Option.map_map]
    rfl

/-- The writes of SETKEY, by the index of the key register. -/
theorem keyWrites_zero (ks : List Word) :
    keyWrites 0 ks = (List.range ks.length).map fun i => .write (0x010 + 4 * i) 4 (ks.getD i 0) := by
  refine List.ext_getElem (by simp [keyWrites]) fun i hi _ => ?_
  have hlt : i < ks.length := by simpa [keyWrites] using hi
  simp [keyWrites, hlt]

/-- Settles O7: SETKEY's lines are writes without labels, and the rest of the program is a fixed list of lines. -/
theorem pseudoInstructionsExpand : Obligations.PseudoInstructionsExpand := by
  intro ks c c' w w' d0 d1 d2 d3 o0 o1 o2 o3 hks hc hc'
  have hlen : 0 + ks.length ≤ 8 := by omega
  simp only [assembleHost, expandFrom, expandMacro, setKeyLines_of_le hks, hc, hc', Option.bind_some, Option.map_some,
    labelsOf_keyLines_append]
  rw [if_pos (by simp [labelsOf]), resolveLines_keyLines_append _ hlen, keyWrites_zero]
  simp [resolveLines, labelPos_keyLines_append, labelPos, regOffset]

/-! ### The host's branch (R79) -/

theorem hostValue_of_lookup {s : State} {name : Nat} {v : Word} (h : s.reads.lookup name = some v) :
    hostValue name s = v := by
  rw [hostValue, h, Option.getD_some]

/-- Settles O48: the step is the host's branch on the value last read. -/
theorem branchMovesOnlyTheHost : Obligations.BranchMovesOnlyTheHost := by
  intro s name mask v target hn hv
  rw [step_of_hostNext hn, hostStep, branchTarget, hostValue_of_lookup hv]
  rfl

end Sys2Proof.Machine
end

section
/-! PROOFS. The field arithmetic (spec/40_gf_arithmetic.md R100 to R107). Every byte is made from 1 by doubling and ⊕,
so a law that is linear in an operand need only be checked at 1. -/

namespace Sys2Proof.Machine

/-! ### Multiplication (R102) -/

/-- R102: a property that doubling and ⊕ keep holds of what the loop makes. -/
theorem gfMulLoop_induction {p : Byte → Prop} (hdouble : ∀ a, p a → p (xtime a))
    (hxor : ∀ a b, p a → p b → p (a ^^^ b)) (n : Nat) {acc a : Byte} (b : Byte) (hacc : p acc) (ha : p a) :
    p (gfMulLoop n acc a b) := by
  induction n generalizing acc a b with
  | zero => exact hacc
  | succ n ih =>
    refine ih (b >>> 1) ?_ (hdouble a ha)
    split
    · exact hxor acc a hacc ha
    · exact hacc

@[simp] theorem gfMul_one_left (y : Byte) : gfMul 1#8 y = y := by
  revert y; decide

/-- The bytes are made from 1 by doubling and ⊕: each is its product with 1, and 0 is 1 ⊕ 1. -/
theorem byte_induction {p : Byte → Prop} (one : p 1#8) (double : ∀ a, p a → p (xtime a))
    (xor : ∀ a b, p a → p b → p (a ^^^ b)) (x : Byte) : p x :=
  gfMul_one_left x ▸ gfMulLoop_induction double xor 8 x (xor 1 1 one one) one

/-- R102: the loop commutes with doubling its operand. -/
theorem gfMulLoop_xtime (n : Nat) (a b : Byte) : gfMulLoop n 0 (xtime a) b = xtime (gfMulLoop n 0 a b) := by
  induction n generalizing a b with
  | zero => simp [gfMulLoop, xtime]
  | succ n ih =>
    simp only [gfMulLoop]
    rw [gfMulLoop_acc, gfMulLoop_acc n (if b.getLsbD 0 = true then 0 ^^^ a else 0), xtime_xor, ih,
      apply_ite xtime, xtime_xor, xtime_zero]

@[simp] theorem gfMul_xtime_left (x y : Byte) : gfMul (xtime x) y = xtime (gfMul x y) := gfMulLoop_xtime 8 x y

@[simp] theorem gfMul_zero_left (y : Byte) : gfMul 0#8 y = 0#8 := by
  simpa using gfMul_xor_left 0 0 y

/-- R102: multiplication distributes over ⊕ in its second operand. -/
theorem gfMul_xor_right (x y z : Byte) : gfMul x (y ^^^ z) = gfMul x y ^^^ gfMul x z := by
  induction x using byte_induction with
  | one => simp
  | double a ih => simp [ih, xtime_xor]
  | xor a b iha ihb => simp only [gfMul_xor_left, iha, ihb]; ac_rfl

@[simp] theorem gfMul_xtime_right (x y : Byte) : gfMul x (xtime y) = xtime (gfMul x y) := by
  induction x using byte_induction with
  | one => simp
  | double a ih => simp [ih]
  | xor a b iha ihb => simp [gfMul_xor_left, iha, ihb, xtime_xor]

@[simp] theorem gfMul_zero_right (x : Byte) : gfMul x 0#8 = 0#8 := by
  simpa using gfMul_xor_right x 0 0

@[simp] theorem gfMul_one_right (x : Byte) : gfMul x 1#8 = x := by
  induction x using byte_induction with
  | one => simp
  | double a ih => simp [ih]
  | xor a b iha ihb => simp [gfMul_xor_left, iha, ihb]

theorem gfMul_comm (x y : Byte) : gfMul x y = gfMul y x := by
  induction x using byte_induction with
  | one => simp
  | double a ih => simp [ih]
  | xor a b iha ihb => simp [gfMul_xor_left, gfMul_xor_right, iha, ihb]

theorem gfMul_assoc (x y z : Byte) : gfMul (gfMul x y) z = gfMul x (gfMul y z) := by
  induction x using byte_induction with
  | one => simp
  | double a ih => simp [ih]
  | xor a b iha ihb => simp [gfMul_xor_left, iha, ihb]

/-- Settles O10: each law is linear in its first operand, so it is proved by induction over how that byte is made. -/
theorem gfMulIsARing : Obligations.GfMulIsARing := fun x y z =>
  ⟨gfMul_zero_left y, gfMul_one_left y, gfMul_comm x y, gfMul_assoc x y z, gfMul_xor_right x y z⟩

/-- Settles O13: each constant is itself made from 1 by doublings and ⊕. -/
theorem smallConstantsAreDoublings : Obligations.SmallConstantsAreDoublings := by
  intro b
  change gfMul (xtime 1#8) b = _ ∧ gfMul (xtime 1#8 ^^^ 1#8) b = _ ∧
    gfMul (xtime (xtime (xtime 1#8)) ^^^ 1#8) b = _ ∧
    gfMul (xtime (xtime (xtime 1#8)) ^^^ xtime 1#8 ^^^ 1#8) b = _ ∧
    gfMul (xtime (xtime (xtime 1#8)) ^^^ xtime (xtime 1#8) ^^^ 1#8) b = _ ∧
    gfMul (xtime (xtime (xtime 1#8)) ^^^ xtime (xtime 1#8) ^^^ xtime 1#8) b = _
  simp [gfMul_xor_left]

/-! ### Powers (R103) -/

/-- R103: the product of `k` copies of `x`. -/
def gfProduct (x : Byte) : Nat → Byte
  | 0 => 1
  | k + 1 => gfMul (gfProduct x k) x

/-- Squaring the factor doubles the number of copies. -/
theorem gfProduct_square (x : Byte) (k : Nat) : gfProduct (gfMul x x) k = gfProduct x (2 * k) := by
  induction k with
  | zero => rfl
  | succ k ih => simp only [Nat.mul_succ, gfProduct, ih, gfMul_assoc]

/-- R103: the loop multiplies its result by the power that is left to do. -/
theorem gfPowLoop_eq_mul_product {fuel e : Nat} (h : e ≤ fuel) (r b : Byte) :
    gfPowLoop fuel r b e = gfMul r (gfProduct b e) := by
  induction fuel generalizing r b e with
  | zero => simp [gfPowLoop, gfProduct, Nat.le_zero.mp h]
  | succ fuel ih =>
    rw [gfPowLoop]
    split
    · next he => simp [he, gfProduct]
    · rw [ih (by omega), gfProduct_square]
      obtain ⟨k, rfl | rfl⟩ := Nat.even_or_odd' e
      · simp
      · have hdiv : (2 * k + 1) / 2 = k := by omega
        simp [hdiv, gfProduct, gfMul_assoc, gfMul_comm b]

theorem gfPow_eq_product (x : Byte) (k : Nat) : gfPow x k = gfProduct x k := by
  simp [gfPow, gfPowLoop_eq_mul_product]

@[simp] theorem gfPow_zero (x : Byte) : gfPow x 0 = 1#8 := rfl

theorem gfPow_succ (x : Byte) (k : Nat) : gfPow x (k + 1) = gfMul (gfPow x k) x := by
  simp only [gfPow_eq_product, gfProduct]

@[simp] theorem gfPow_one_right (x : Byte) : gfPow x 1 = x := by simp [gfPow_succ x 0]

/-- Settles O11: the loop computes the product of k copies, which is defined by the two equations. -/
theorem gfPowIsTheProduct : Obligations.GfPowIsTheProduct := fun x k => ⟨gfPow_zero x, gfPow_succ x k⟩

theorem gfPow_two_mul (x : Byte) (k : Nat) : gfPow x (2 * k) = gfPow (gfMul x x) k := by
  rw [gfPow_eq_product, gfPow_eq_product, gfProduct_square]

@[simp] theorem gfPow_one_left (k : Nat) : gfPow 1#8 k = 1#8 := by
  induction k with
  | zero => rfl
  | succ k ih => simp [gfPow_succ, ih]

theorem gfPow_zero_succ (k : Nat) : gfPow 0#8 (k + 1) = 0#8 := by simp [gfPow_succ]

theorem gfMul_mul_mul_comm (a b c d : Byte) : gfMul (gfMul a b) (gfMul c d) = gfMul (gfMul a c) (gfMul b d) := by
  rw [gfMul_assoc, ← gfMul_assoc b, gfMul_comm b c, gfMul_assoc c, ← gfMul_assoc]

theorem gfPow_mul (x y : Byte) (k : Nat) : gfPow (gfMul x y) k = gfMul (gfPow x k) (gfPow y k) := by
  induction k with
  | zero => simp
  | succ k ih => rw [gfPow_succ, gfPow_succ, gfPow_succ, ih, gfMul_mul_mul_comm]

/-! ### The inverse (R104, R105) -/

/-- Squaring is linear over ⊕: the two mixed products are equal and cancel. -/
theorem gfMul_self_xor (x y : Byte) : gfMul (x ^^^ y) (x ^^^ y) = gfMul x x ^^^ gfMul y y := by
  simp [gfMul_xor_left, gfMul_xor_right, gfMul_comm y x, BitVec.xor_assoc]

theorem gfPow_two_pow_xor (x y : Byte) (n : Nat) : gfPow (x ^^^ y) (2 ^ n) = gfPow x (2 ^ n) ^^^ gfPow y (2 ^ n) := by
  induction n generalizing x y with
  | zero => simp
  | succ n ih => simp only [Nat.pow_succ', gfPow_two_mul, gfMul_self_xor, ih]

/-- Squaring eight times changes no byte: it keeps ⊕ and products, and so doubling, as it does not change 2. -/
theorem gfPow_two_pow_eight (x : Byte) : gfPow x (2 ^ 8) = x := by
  induction x using byte_induction with
  | one => exact gfPow_one_left (2 ^ 8)
  | double a ih =>
    have htwo : gfPow (xtime 1#8) (2 ^ 8) = xtime 1#8 := by decide +kernel
    have hmul : xtime a = gfMul (xtime 1#8) a := by simp
    rw [hmul, gfPow_mul, htwo, ih]
  | xor a b iha ihb => rw [gfPow_two_pow_xor, iha, ihb]

theorem gfMul_gfInv_mul (x : Byte) : gfMul (gfMul x (gfInv x)) x = x := by
  rw [gfMul_comm x, gfInv, ← gfPow_succ, ← gfPow_succ]
  exact gfPow_two_pow_eight x

/-- R102: 0 and 1 are the only bytes that are their own square. Here it counts that 0x11B is irreducible. -/
theorem eq_zero_or_one_of_gfMul_self : ∀ {e : Byte}, gfMul e e = e → e = 0 ∨ e = 1 := by
  decide

/-- R105: multiplying x by x · gf_inv(x) gives x again, so that product is its own square and is not 0. -/
theorem gfMul_gfInv {x : Byte} (hx : x ≠ 0) : gfMul x (gfInv x) = 1 := by
  have hself : gfMul (gfMul x (gfInv x)) (gfMul x (gfInv x)) = gfMul x (gfInv x) := by
    rw [← gfMul_assoc, gfMul_gfInv_mul]
  refine (eq_zero_or_one_of_gfMul_self hself).resolve_left fun hzero => hx ?_
  rw [← gfMul_gfInv_mul x, hzero]
  exact gfMul_zero_left x

/-- Settles O12: the product with the inverse is its own square and not 0; the power 254 of 0 has a factor 0. -/
theorem inverseTimesByteIsOne : Obligations.InverseTimesByteIsOne :=
  ⟨fun _ => gfMul_gfInv, gfMul_zero_left _, gfPow_zero_succ 253⟩

end Sys2Proof.Machine
end

section
/-! PROOFS. The S-boxes (spec/41_sbox.md R120 to R122). An affine map is a sum of rotations and a constant, so its laws
come from the laws of the rotation: it is linear over ⊕, and its amounts add modulo 8. -/

namespace Sys2Proof.Machine

/-! ### Rotating a byte (R11) -/

section
variable (x y : Byte) {j k : Nat}

/-- R11: bit `i` of a byte rotated right by `k` is bit `i + k`, counted around the byte. -/
theorem getLsbD_rotr8 (hk : k < 8) {i : Nat} (hi : i < 8) : (rotr8 y k).getLsbD i = y.getLsbD ((i + k) % 8) := by
  rw [rotr8, BitVec.getLsbD_or, BitVec.getLsbD_ushiftRight, BitVec.getLsbD_shiftLeft]
  by_cases hin : i + k < 8
  · simp [show i < 8 - k by omega, Nat.mod_eq_of_lt hin, Nat.add_comm k]
  · rw [BitVec.getLsbD_of_ge y (k + i) (by omega)]
    simp [show ¬ i < 8 - k by omega, hi, show (i + k) % 8 = i - (8 - k) by omega]

theorem rotr8_zero : rotr8 y 0 = y :=
  BitVec.eq_of_getLsbD_eq fun i hi => by
    rw [getLsbD_rotr8 y (by decide) hi, Nat.add_zero, Nat.mod_eq_of_lt hi]

theorem rotr8_xor (hk : k < 8) : rotr8 (x ^^^ y) k = rotr8 x k ^^^ rotr8 y k :=
  BitVec.eq_of_getLsbD_eq fun i hi => by simp only [getLsbD_rotr8 _ hk hi, BitVec.getLsbD_xor]

/-- R11: the amounts of two rotations add, counted around the byte. -/
theorem rotr8_rotr8 (hj : j < 8) (hk : k < 8) : rotr8 (rotr8 y j) k = rotr8 y ((j + k) % 8) := by
  refine BitVec.eq_of_getLsbD_eq fun i hi => ?_
  have hlt (n : Nat) : n % 8 < 8 := Nat.mod_lt n (by decide)
  rw [getLsbD_rotr8 _ hk hi, getLsbD_rotr8 y hj (hlt _), getLsbD_rotr8 y (hlt _) hi, Nat.mod_add_mod, Nat.add_mod_mod,
    Nat.add_assoc, Nat.add_comm k]

end

/-! ### The affine maps (R120, R121) -/

/-- Settles O14: each term of an affine map is a rotation of the byte, or its constant. -/
theorem affineMapsInBitForm : Obligations.AffineMapsInBitForm := by
  intro y i hi
  simp only [affine, invAffine, BitVec.getLsbD_xor, getLsbD_rotr8 y _ hi, Nat.reduceLT, and_self]

/-- R122: the two maps put together rotate the byte by 0, and by each other amount twice, which cancels. -/
theorem invAffine_affine (y : Byte) : invAffine (affine y) = y := by
  have hconst : rotr8 0x63 2 ^^^ rotr8 0x63 5 ^^^ rotr8 0x63 7 ^^^ 0x05 = 0 := by decide
  calc invAffine (affine y) = y ^^^ (rotr8 0x63 2 ^^^ rotr8 0x63 5 ^^^ rotr8 0x63 7 ^^^ 0x05) := by
        simp only [affine, invAffine, rotr8_xor, rotr8_rotr8, rotr8_zero, Nat.reduceLT, Nat.reduceAdd, Nat.reduceMod]
        ac_nf
        simp only [xor_cancel_left]
    _ = y := by rw [hconst, xor_zero]

/-- R122: on the finitely many bytes, what undoes a map is also undone by it. -/
theorem affine_invAffine (y : Byte) : affine (invAffine y) = y :=
  Function.LeftInverse.rightInverse_of_card_le invAffine_affine le_rfl y

/-! ### The inverse and the S-boxes (R122) -/

@[simp] theorem gfInv_zero : gfInv 0#8 = 0#8 := gfPow_zero_succ 253

theorem gfInv_ne_zero {x : Byte} (hx : x ≠ 0) : gfInv x ≠ 0 := by
  intro hzero
  have hmul := gfMul_gfInv hx
  simp [hzero] at hmul

/-- R122: for a byte x other than 0, x and gf_inv(gf_inv(x)) are both inverse to gf_inv(x), and so equal. -/
theorem gfInv_gfInv (x : Byte) : gfInv (gfInv x) = x := by
  by_cases hx : x = 0
  · simp [hx]
  · calc gfInv (gfInv x) = gfMul (gfMul x (gfInv x)) (gfInv (gfInv x)) := by simp [gfMul_gfInv hx]
      _ = gfMul x (gfMul (gfInv x) (gfInv (gfInv x))) := gfMul_assoc ..
      _ = x := by simp [gfMul_gfInv (gfInv_ne_zero hx)]

theorem invSbox_sbox (x : Byte) : invSbox (sbox x) = x := by rw [invSbox, sbox, invAffine_affine, gfInv_gfInv]

theorem sbox_invSbox (x : Byte) : sbox (invSbox x) = x := by rw [sbox, invSbox, gfInv_gfInv, affine_invAffine]

/-- Settles O15: each S-box is made of two maps that are undone one after the other. -/
theorem sboxesUndoEachOther : Obligations.SboxesUndoEachOther := fun x =>
  ⟨invSbox_sbox x, sbox_invSbox x, invAffine_affine x, affine_invAffine x, gfInv_gfInv x⟩

end Sys2Proof.Machine
end

section
/-! PROOFS. The key scheduler (spec/42_key_schedule.md R130 to R139). The word sequence satisfies the recurrence that
its loop runs; and row `r` of a store is one round key, so each statement about a store comes from one about rows. -/

namespace Sys2Proof.Machine

/-! ### The words of the expansion (R130 to R133) -/

theorem rc_succ {i : Nat} (hi : 1 ≤ i) : rc (i + 1) = gfMul 2 (rc i) := by
  obtain ⟨j, rfl⟩ := Nat.exists_eq_add_of_le' hi
  exact (gfPow_succ 2 j).trans (gfMul_comm _ _)

theorem rotWord_eq_rol32 (w : Word) : rotWord w = rol32 w 8 := by
  rw [rotWord, pack_rotlistLeft1, pack_unpack]

@[simp] theorem byteOf_subWord (w : Word) (k : Fin 4) : byteOf (subWord w) k = sbox (byteOf w k) := by
  rw [subWord, byteOf_pack, Vector.getElem_map, unpack_getElem]

/-- R133: word `i` is made from words before it only. -/
theorem nextWord_congr {nk i : Nat} {w w' : List Word} (hnk : 0 < nk) (hi : 0 < i)
    (h : ∀ j < i, w.getD j 0 = w'.getD j 0) : nextWord nk i w = nextWord nk i w' := by
  rw [nextWord, nextWord, h (i - nk) (by omega), h (i - 1) (by omega)]

/-- R133: each word that the loop adds is the next word of the finished sequence, as later words do not bear on it. -/
theorem extendWords_getD_eq_nextWord {nk i : Nat} (n : Nat) {w : List Word} (hnk : 0 < nk) (hw : 0 < w.length)
    (hlo : w.length ≤ i) (hhi : i < w.length + n) :
    (extendWords nk n w).getD i 0 = nextWord nk i (extendWords nk n w) := by
  induction n generalizing w with
  | zero => omega
  | succ n ih =>
    rcases hlo.eq_or_lt with rfl | hlt
    · have hkept : ∀ j < w.length, w.getD j 0 = (extendWords nk (n + 1) w).getD j 0 :=
        fun j hj => (extendWords_getD nk (n + 1) j w hj).symm
      rw [← nextWord_congr hnk hw hkept, extendWords, extendWords_getD _ _ _ _ (by simp)]
      simp
    · exact ih (by simp) (by simpa using hlt) (by simp; omega)

theorem expandWords_length {key : List Word} (hkey : key.length ≤ 9) :
    (expandWords key).length = 4 * (key.length + 6 + 1) := by
  rw [expandWords, extendWords_length, nwOf]
  omega

theorem expandWords_getD_of_lt {key : List Word} {i : Nat} (hi : i < key.length) :
    (expandWords key).getD i 0 = key.getD i 0 :=
  extendWords_getD _ _ _ _ hi

theorem expandWords_getD_of_ge {key : List Word} {i : Nat} (hpos : 0 < key.length) (hlo : key.length ≤ i)
    (hhi : i < 4 * (key.length + 6 + 1)) :
    (expandWords key).getD i 0 = nextWord key.length i (expandWords key) :=
  extendWords_getD_eq_nextWord _ hpos hpos hlo (by rw [nwOf]; omega)

/-- Settles O17: the loop keeps the key's words and adds next words, which the finished sequence determines as well. -/
theorem expandedWordsFollowTheRecurrence : Obligations.ExpandedWordsFollowTheRecurrence := by
  refine ⟨⟨gfPow_zero 2, fun i => rc_succ⟩, rotWord_eq_rol32, byteOf_subWord, fun key hkey => ?_⟩
  refine ⟨expandWords_length (by omega), fun i hi => ?_⟩
  by_cases hlt : i < key.length
  · rw [if_pos hlt, expandWords_getD_of_lt hlt]
  · rw [if_neg hlt, expandWords_getD_of_ge (by omega) (by omega) hi, nextWord]

/-! ### The inverse diffusion matrix (R136) -/

theorem byteOf_xor (v w : Word) (k : Fin 4) : byteOf (v ^^^ w) k = byteOf v k ^^^ byteOf w k :=
  BitVec.extractLsb'_xor

@[simp] theorem invMixColumns_get (s : Block) (c : Fin 4) : (invMixColumns s).get c = invMixColumn (s.get c) := by
  simp [invMixColumns, Vector.get_eq_getElem]

theorem byteOf_invMixColumn (w : Word) (r : Fin 4) :
    byteOf (invMixColumn w) r = matrixRow (invMatrix.get r) (unpack w) := by
  rw [invMixColumn, byteOf_pack, Vector.getElem_map, Vector.get_eq_getElem]

/-- R136: a row of M is linear over ⊕ in the column. -/
theorem matrixRow_unpack_xor (m : Bytes4) (v w : Word) :
    matrixRow m (unpack (v ^^^ w)) = matrixRow m (unpack v) ^^^ matrixRow m (unpack w) := by
  simp only [matrixRow, unpack_getElem, byteOf_xor, gfMul_xor_right]
  ac_rfl

theorem invMixColumn_xor (v w : Word) : invMixColumn (v ^^^ w) = invMixColumn v ^^^ invMixColumn w :=
  eq_of_byteOf_eq fun r => by simp only [byteOf_xor, byteOf_invMixColumn, matrixRow_unpack_xor]

/-- R136: on a column of four equal bytes a row of M acts as the sum of its entries. -/
theorem matrixRow_replicate (m : Bytes4) (v : Byte) :
    matrixRow m #v[v, v, v, v] = gfMul (m[0] ^^^ m[1] ^^^ m[2] ^^^ m[3]) v := by
  simp [matrixRow, gfMul_xor_left]

/-- R136: the entries of each row of M add up to 1. -/
theorem invMatrix_row_sum (r : Fin 4) :
    (invMatrix.get r)[0] ^^^ (invMatrix.get r)[1] ^^^ (invMatrix.get r)[2] ^^^ (invMatrix.get r)[3] = 1#8 := by
  revert r; decide

theorem invMixColumn_replicate (v : Byte) : invMixColumn (pack #v[v, v, v, v]) = pack #v[v, v, v, v] := by
  refine eq_of_byteOf_eq fun r => ?_
  rw [byteOf_invMixColumn, unpack_pack, matrixRow_replicate, invMatrix_row_sum, gfMul_one_left, byteOf_pack]
  match r with
  | 0 | 1 | 2 | 3 => rfl

/-- Settles O18: an output byte is a row of M on the column, which is linear, and the sum of a row's entries is 1. -/
theorem invMixColumnsIsTheMatrix : Obligations.InvMixColumnsIsTheMatrix := by
  refine ⟨fun s c r => ?_, fun s t c => ?_, invMixColumn_replicate, invMixColumn_replicate 0⟩
  · rw [invMixColumns_get, byteOf_invMixColumn]
    rfl
  · simp only [invMixColumns_get, vector_get_ofFn, invMixColumn_xor]

/-! ### The length check (R139) -/

theorem keyLenLegal_iff {n : Nat} : keyLenLegal n = true ↔ n = 4 ∨ n = 6 ∨ n = 8 := by
  simp [keyLenLegal, or_assoc]

/-- Settles O19: the two branches of the length check. -/
theorem expandKeyFailsOnOtherLengths : Obligations.ExpandKeyFailsOnOtherLengths := fun _ =>
  ⟨fun h => if_pos (keyLenLegal_iff.mpr h), fun h => if_neg (mt keyLenLegal_iff.mp h)⟩

/-! ### The rows of a schedule's store (R138) -/

/-- R138: the round keys of a schedule in the order of the store. -/
def Schedule.blocks (sch : Schedule) : List Block := sch.initial :: (sch.middle ++ [sch.final])

theorem Schedule.words_eq (sch : Schedule) : sch.words = sch.blocks.flatMap Vector.toList := rfl

/-- R138: row `r` of a schedule's store, which is zero past the final key. -/
def Schedule.row (sch : Schedule) (r : Nat) : Block := sch.blocks.getD r (Vector.replicate 4 0)

/-- Word `4 * r + c` of the blocks written one after another is word `c` of block `r`. -/
theorem flatMap_toList_getD (bs : List Block) (r : Nat) (c : Fin 4) :
    (bs.flatMap Vector.toList).getD (4 * r + c.val) 0 = (bs.getD r (Vector.replicate 4 0)).get c := by
  induction bs generalizing r with
  | nil => simp [Vector.get_eq_getElem]
  | cons b bs ih =>
    cases r with
    | zero => simp [List.getD_eq_getElem?_getD, List.getElem?_append_left, Vector.get_eq_getElem]
    | succ r =>
      have hindex : 4 * (r + 1) + c.val - 4 = 4 * r + c.val := by omega
      rw [List.flatMap_cons, List.getD_append_right _ _ _ _ (by simp; omega), Vector.length_toList, hindex, ih,
        List.getD_cons_succ]

theorem vector_toList_getD {n i : Nat} (x : Vector Word n) (h : i < n) : x.toList.getD i 0 = x.get ⟨i, h⟩ := by
  simp [Vector.get_eq_getElem, List.getD_eq_getElem?_getD, h]

section
variable {sch : Schedule} {r nr : Nat} {w : List Word}

theorem Schedule.flatten_get_row (sch : Schedule) (c : Fin 4) (h : 4 * r + c.val < 60) :
    sch.flatten.get ⟨4 * r + c.val, h⟩ = (sch.row r).get c := by
  rw [flatten_get, words_eq, flatMap_toList_getD, row]

theorem Schedule.flatten_toList_getD_row (sch : Schedule) (c : Fin 4) (h : 4 * r + c.val < 60) :
    sch.flatten.toList.getD (4 * r + c.val) 0 = (sch.row r).get c := by
  rw [vector_toList_getD _ h, flatten_get_row]

/-- R138: word `i` of the store is word `i mod 4` of row `i / 4`. -/
theorem Schedule.flatten_get_eq_row (sch : Schedule) (i : Fin 60) :
    sch.flatten.get i = (sch.row (i.val / 4)).get ⟨i.val % 4, Nat.mod_lt _ (by decide)⟩ := by
  rw [← flatten_get_row sch _ (by simpa only [Nat.div_add_mod] using i.isLt)]
  simp only [Nat.div_add_mod]

theorem Schedule.row_zero (sch : Schedule) : sch.row 0 = sch.initial := rfl

theorem Schedule.row_middle {m : Nat} (h : m < sch.middle.length) : sch.row (m + 1) = sch.middle[m] := by
  rw [row, blocks, List.getD_cons_succ, List.getD_append _ _ _ _ h, List.getD_eq_getElem]

theorem Schedule.row_final (h : sch.middle.length + 1 = nr) : sch.row nr = sch.final := by
  subst h
  simp [row, blocks]

theorem Schedule.row_beyond (h : sch.middle.length + 1 < r) : sch.row r = Vector.replicate 4 0 :=
  List.getD_eq_default _ _ (by simp [blocks]; omega)

/-- R135: the rows of the encryption store are the round keys in order. -/
theorem encSched_row (hr : r ≤ nr) (hnr : 1 ≤ nr) : (encSched nr w).row r = roundKey w r := by
  have hlen := encSched_middle_length nr w
  rcases r with _ | m
  · rfl
  rcases hr.eq_or_lt with rfl | hlt
  · exact Schedule.row_final (by omega)
  · rw [Schedule.row_middle (by omega)]
    simp [encSched]

theorem decSched_row_zero : (decSched nr w).row 0 = roundKey w nr := rfl

/-- R137: a middle row of the decryption store is a round key from the other end, through invMixColumns. -/
theorem decSched_row_middle (hpos : 0 < r) (hr : r < nr) :
    (decSched nr w).row r = invMixColumns (roundKey w (nr - r)) := by
  obtain ⟨m, rfl⟩ := Nat.exists_eq_add_of_le' hpos
  have hround : nr - 1 - m = nr - (m + 1) := by omega
  rw [Schedule.row_middle (by rw [decSched_middle_length]; omega)]
  simp [decSched, hround]

theorem decSched_row_final (hnr : 1 ≤ nr) : (decSched nr w).row nr = roundKey w 0 :=
  Schedule.row_final (by rw [decSched_middle_length]; omega)

theorem zeroRow_get (c : Fin 4) : (Vector.replicate 4 0 : Block).get c = 0 := by
  simp [Vector.get_eq_getElem]

/-- R134: round key `r` holds the words from `4 * r` on. -/
theorem roundKey_get (w : List Word) (r : Nat) (c : Fin 4) : (roundKey w r).get c = w.getD (4 * r + c.val) 0 := by
  match c with
  | 0 | 1 | 2 | 3 => rfl

/-- R135, R138: the encryption store begins with the word sequence. -/
theorem encSched_flatten_get (w : List Word) {i : Fin 60} (hnr : 1 ≤ nr) (hi : i.val < 4 * (nr + 1)) :
    (encSched nr w).flatten.get i = w.getD i.val 0 := by
  rw [Schedule.flatten_get_eq_row, encSched_row (by omega) hnr, roundKey_get, Nat.div_add_mod]

/-- R138: past the final key a store is zero. -/
theorem Schedule.flatten_get_beyond {i : Fin 60} (hi : 4 * (sch.middle.length + 2) ≤ i.val) :
    sch.flatten.get i = 0 := by
  rw [flatten_get_eq_row, row_beyond (by omega), zeroRow_get]

end

/-- Settles O20: the initial key, the middle keys and the final key are rows 0, 1 to Nr-1 and Nr, and no row follows. -/
theorem storeLaysTheScheduleOut : Obligations.StoreLaysTheScheduleOut := by
  intro sch nr c hnr hmax hlen
  refine ⟨?_, fun m hm => ?_, ?_, fun i hi => ?_, fun x r h => ?_, fun w i hsch hi => ?_⟩
  · rw [sch.flatten_toList_getD_row c (by omega), Schedule.row_zero]
  · rw [sch.flatten_toList_getD_row c (by omega), Schedule.row_middle hm]
  · rw [sch.flatten_toList_getD_row c (by omega), Schedule.row_final (by omega)]
  · exact Schedule.flatten_get_beyond (by omega)
  · rw [sk_get, vector_toList_getD x h]
  · rw [vector_toList_getD _ (by omega), hsch, encSched_flatten_get w hnr hi]

/-- Settles O21: the rows of the encryption store are the round keys, and round key r is words 4r to 4r+3. -/
theorem encryptionStoreIsTheWordSequence : Obligations.EncryptionStoreIsTheWordSequence := by
  intro key e d i h
  obtain ⟨-, rfl, -⟩ := expandKey_ok h
  split
  · next hi => exact encSched_flatten_get _ (by omega) hi
  · next hi => exact Schedule.flatten_get_beyond (by rw [encSched_middle_length]; omega)

/-- Settles O22: by the four kinds of rows of the decryption schedule's store. -/
theorem decryptionStoreIsReversed : Obligations.DecryptionStoreIsReversed := by
  intro key e d r c hrc h
  obtain ⟨-, -, rfl⟩ := expandKey_ok h
  rw [Schedule.flatten_get_row]
  split
  · next hzero => rw [hzero, decSched_row_zero]
  split
  · next hlt => rw [decSched_row_middle (by omega) hlt]
  split
  · next heq => rw [heq, decSched_row_final (by omega)]
  · next hlast => rw [Schedule.row_beyond (by rw [decSched_middle_length]; omega), zeroRow_get]

end Sys2Proof.Machine
end

section
/-! PROOFS. The T and U tables (spec/43_tbox.md R150 to R155). Rotating a column of four bytes right moves byte `r - n` to
byte `r`, so entry n of a table is a column of its matrix; and the four U entries of a column, added up, are M times the
column of their substituted bytes. -/

namespace Sys2Proof.Machine

/-! ### Columns of the matrices (R155) -/

/-- R12: byte `r` of a list rotated right by `n` is byte `r - n`, counted around the list. -/
theorem rotlistRight_get (l : Bytes4) (n r : Fin 4) : (rotlistRight n l).get r = l.get (r - n) := by
  match n with
  | 0 | 1 | 2 | 3 =>
    match r with
    | 0 | 1 | 2 | 3 => rfl

theorem byteOf_pack_rotlistRight (l : Bytes4) (n r : Fin 4) : byteOf (pack (rotlistRight n l)) r = l.get (r - n) := by
  rw [← rotlistRight_get, byteOf_pack, Vector.get_eq_getElem]

/-- R150: `t0Func` is column 0 of the forward diffusion matrix, scaled. -/
theorem t0Func_get (b : Byte) (k : Fin 4) :
    (t0Func b).get k = gfMul ((#v[2, 1, 1, 3] : Bytes4).get k) (sbox b) := by
  match k with
  | 0 | 3 => rfl
  | 1 | 2 => exact (gfMul_one_left (sbox b)).symm

/-- R152: `u0Func` is column 0 of M, scaled. -/
theorem u0Func_get (b : Byte) (k : Fin 4) : (u0Func b).get k = gfMul ((invMatrix.get k).get 0) (invSbox b) := by
  match k with
  | 0 | 1 | 2 | 3 => rfl

/-- R136: each column of M is the one before it rotated down by one byte. -/
theorem invMatrix_circulant (n r : Fin 4) : (invMatrix.get (r - n)).get 0 = (invMatrix.get r).get n := by
  revert n r; decide

theorem byteOf_tbox (b : Byte) (n r : Fin 4) :
    byteOf (tbox n b) r = gfMul ((#v[2, 1, 1, 3] : Bytes4).get (r - n)) (sbox b) := by
  rw [tbox, byteOf_pack_rotlistRight, t0Func_get]

theorem byteOf_ubox (b : Byte) (n r : Fin 4) :
    byteOf (ubox n b) r = gfMul ((invMatrix.get r).get n) (invSbox b) := by
  rw [ubox, byteOf_pack_rotlistRight, u0Func_get, invMatrix_circulant]

/-- Settles O16: entry n is column 0 rotated right by n positions, and both matrices are circulant. -/
theorem tablesAreScaledMatrixColumns : Obligations.TablesAreScaledMatrixColumns := fun b n r =>
  ⟨byteOf_tbox b n r, byteOf_ubox b n r⟩

/-! ### The fused decryption round (R155, R165) -/

/-- R155: column n of M scaled by byte n of a column, added up over n, is M times the column. -/
theorem ubox_xor_eq_invMixColumn (a b c d : Byte) :
    ubox 0 a ^^^ ubox 1 b ^^^ ubox 2 c ^^^ ubox 3 d =
      invMixColumn (pack #v[invSbox a, invSbox b, invSbox c, invSbox d]) := by
  refine eq_of_byteOf_eq fun r => ?_
  simp only [byteOf_xor, byteOf_invMixColumn, unpack_pack]
  change byteOf (ubox (0 : Fin 4) a) r ^^^ byteOf (ubox (1 : Fin 4) b) r ^^^ byteOf (ubox (2 : Fin 4) c) r ^^^
    byteOf (ubox (3 : Fin 4) d) r = _
  simp only [byteOf_ubox]
  rfl

theorem decRound_get (s k : Block) (j : Fin 4) :
    (decRound s k).get j = ubox 0 (byteOf (s.get j) 0) ^^^ ubox 1 (byteOf (s.get (j + 3)) 1) ^^^
      ubox 2 (byteOf (s.get (j + 2)) 2) ^^^ ubox 3 (byteOf (s.get (j + 1)) 3) ^^^ k.get j := by
  rw [decRound, vector_get_ofFn, add_zero]

/-- Blocks with the same four columns are equal. -/
theorem block_eq_of_get_eq {s t : Block} (h : ∀ j, s.get j = t.get j) : s = t :=
  Vector.ext fun j hj => h ⟨j, hj⟩

/-- Settles O24: by linearity invMixColumns passes over the key, and over the gathered bytes it is the four U entries. -/
theorem decRoundFusesThreeSteps : Obligations.DecRoundFusesThreeSteps := by
  refine fun s k => block_eq_of_get_eq fun j => ?_
  rw [decRound_get, invMixColumns_get, invMixColumns_get, addRoundKey_get, vector_get_ofFn, invMixColumn_xor,
    ubox_xor_eq_invMixColumn]

end Sys2Proof.Machine
end

section
/-! PROOFS. The round engine (spec/44_round_engine.md R160 to R171). InvMixColumns takes the diffusion out of a standard
encryption round and leaves its gathered bytes and its key; and a decryption round is the inverse gathering, then the
key, then invMixColumns (R155). So with the keys of the decryption schedule each decryption round undoes one encryption
round, and the round trip follows along the rounds. -/

namespace Sys2Proof.Machine

/-! ### The round sequence (R160 to R168) -/

section
variable {x : Store} {nr : Nat} {b : Nat → Block}

/-- R167: the encryption along any sequence of blocks that the standard round leads from one to the next. -/
theorem encryptBlock_of_rounds {p : Block} (hzero : b 0 = addRoundKey (sk x 0) p)
    (hround : ∀ r, 1 ≤ r → r ≤ nr - 1 → b r = encRound (b (r - 1)) (sk x r)) :
    encryptBlock p x nr = encFinal (b (nr - 1)) (sk x nr) := by
  rw [encryptBlock, ← hzero, foldl_rounds (f := fun s r => encRound s (sk x r)) (nr - 1) hround]

/-- R168: the decryption along any such sequence. -/
theorem decryptBlock_of_rounds {c : Block} (hzero : b 0 = addRoundKey (sk x 0) c)
    (hround : ∀ r, 1 ≤ r → r ≤ nr - 1 → b r = decRound (b (r - 1)) (sk x r)) :
    decryptBlock c x nr = decFinal (b (nr - 1)) (sk x nr) := by
  rw [decryptBlock, ← hzero, foldl_rounds (f := fun s r => decRound s (sk x r)) (nr - 1) hround]

end

/-- Settles O23: the fold of the rounds is any sequence that they lead along, and a column of a round is the element
that the round's definition gives for it. -/
theorem roundsGatherTheirColumns : Obligations.RoundsGatherTheirColumns := by
  refine ⟨fun p x nr b _ hzero => ⟨encryptBlock_of_rounds hzero, decryptBlock_of_rounds hzero⟩, fun x r c h => ?_,
    fun s k j hj => ?_⟩
  · rw [sk_get, vector_toList_getD x h]
  · exact ⟨Vector.getElem_ofFn hj, Vector.getElem_ofFn hj, Vector.getElem_ofFn hj, Vector.getElem_ofFn hj,
      Vector.getElem_ofFn hj⟩

/-! ### The parts of a round (R155, R163 to R166) -/

/-- R164: the substituted bytes of a block, byte `k` gathered `k` columns on. -/
def encGather (s : Block) : Block :=
  Vector.ofFn fun j => pack (Vector.ofFn fun k => sbox (byteOf (s.get (j + k)) k))

/-- R166: the bytes of a block through the inverse S-box, byte `k` gathered `k` columns back. -/
def decGather (s : Block) : Block :=
  Vector.ofFn fun j => pack (Vector.ofFn fun k => invSbox (byteOf (s.get (j - k)) k))

theorem byteOf_encGather (s : Block) (j k : Fin 4) :
    byteOf ((encGather s).get j) k = sbox (byteOf (s.get (j + k)) k) := by
  rw [encGather, vector_get_ofFn, byteOf_pack, Vector.getElem_ofFn]

theorem byteOf_decGather (s : Block) (j k : Fin 4) :
    byteOf ((decGather s).get j) k = invSbox (byteOf (s.get (j - k)) k) := by
  rw [decGather, vector_get_ofFn, byteOf_pack, Vector.getElem_ofFn]

/-- Gathering back leads each byte to the column it was gathered from, and the S-boxes undo each other. -/
@[simp] theorem decGather_encGather (s : Block) : decGather (encGather s) = s :=
  block_eq_of_get_eq fun j => eq_of_byteOf_eq fun k => by
    rw [byteOf_decGather, byteOf_encGather, invSbox_sbox, sub_add_cancel]

theorem pack_ofFn (f : Fin 4 → Byte) : pack (Vector.ofFn f) = pack #v[f 0, f 1, f 2, f 3] := by
  simp [pack]

/-- R10: the bytes of a packed word do not overlap, so ⊕ puts them together as well as `|` does. -/
theorem pack_eq_xor_shiftLeft (a b c d : Byte) :
    pack #v[a, b, c, d] =
      (a.setWidth 32 <<< 24) ^^^ (b.setWidth 32 <<< 16) ^^^ (c.setWidth 32 <<< 8) ^^^ d.setWidth 32 := by
  have h0 (k : Fin 4) : byteOf (a.setWidth 32 <<< 24) k = if k = 0 then a else 0 := byteOf_shiftLeft a 0 k
  have h1 (k : Fin 4) : byteOf (b.setWidth 32 <<< 16) k = if k = 1 then b else 0 := byteOf_shiftLeft b 1 k
  have h2 (k : Fin 4) : byteOf (c.setWidth 32 <<< 8) k = if k = 2 then c else 0 := byteOf_shiftLeft c 2 k
  have h3 (k : Fin 4) : byteOf (d.setWidth 32) k = if k = 3 then d else 0 := by simpa using byteOf_shiftLeft d 3 k
  refine eq_of_byteOf_eq fun k => ?_
  rw [byteOf_pack, byteOf_xor, byteOf_xor, byteOf_xor, h0, h1, h2, h3]
  match k with
  | 0 | 1 | 2 | 3 => simp

/-- R164: the final encryption round is the gathered bytes with the key added. -/
theorem encFinal_eq (s k : Block) : encFinal s k = addRoundKey k (encGather s) :=
  block_eq_of_get_eq fun j => by
    rw [encFinal, encGather, addRoundKey_get, vector_get_ofFn, vector_get_ofFn, pack_ofFn, pack_eq_xor_shiftLeft]

/-- R165, R166: one, two and three columns back are the mirrored columns j+3, j+2 and j+1. -/
theorem sub_eq_add_mirrored (j : Fin 4) : j - 1 = j + 3 ∧ j - 2 = j + 2 ∧ j - 3 = j + 1 := by
  revert j; decide

theorem decGather_eq (s : Block) :
    decGather s = Vector.ofFn fun j => pack #v[invSbox (byteOf (s.get j) 0), invSbox (byteOf (s.get (j + 3)) 1),
      invSbox (byteOf (s.get (j + 2)) 2), invSbox (byteOf (s.get (j + 1)) 3)] :=
  block_eq_of_get_eq fun j => by
    obtain ⟨h1, h2, h3⟩ := sub_eq_add_mirrored j
    rw [decGather, vector_get_ofFn, vector_get_ofFn, pack_ofFn, sub_zero, h1, h2, h3]

/-- R166: the final decryption round is the gathered bytes with the key added. -/
theorem decFinal_eq (s k : Block) : decFinal s k = addRoundKey k (decGather s) :=
  block_eq_of_get_eq fun j => by
    rw [decFinal, decGather_eq, addRoundKey_get, vector_get_ofFn, vector_get_ofFn, pack_eq_xor_shiftLeft, add_zero]

/-- R155, R165: a decryption round with a key through invMixColumns. -/
theorem decRound_invMixColumns (s k : Block) :
    decRound s (invMixColumns k) = invMixColumns (addRoundKey k (decGather s)) := by
  rw [decGather_eq, decRoundFusesThreeSteps s k]

/-- R136, R155: row `r` of M times column `n` of the forward diffusion matrix is 1 on the diagonal and 0 beside it. -/
theorem invMatrix_mul_forward (n r : Fin 4) :
    matrixRow (invMatrix.get r) (Vector.ofFn fun k => (#v[2, 1, 1, 3] : Bytes4).get (k - n)) =
      if r = n then 1#8 else 0#8 := by
  revert n r; decide

/-- R136: a row of M passes over a common factor of the column. -/
theorem matrixRow_gfMul (m a : Bytes4) (x : Byte) :
    matrixRow m (Vector.ofFn fun k => gfMul (a.get k) x) = gfMul (matrixRow m a) x := by
  simp [matrixRow, gfMul_xor_left, gfMul_assoc, Vector.get_eq_getElem]

/-- R155: M undoes the diffusion of entry `n` of a T table, and the substituted byte is left in position `n`. -/
theorem invMixColumn_tbox {n : Nat} (hn : n < 4) (b : Byte) :
    invMixColumn (tbox n b) = (sbox b).setWidth 32 <<< (24 - 8 * n) := by
  have hentry : unpack (tbox n b) = Vector.ofFn fun k =>
      gfMul ((Vector.ofFn fun i => (#v[2, 1, 1, 3] : Bytes4).get (i - ⟨n, hn⟩)).get k) (sbox b) :=
    Vector.ext fun i hi => by rw [unpack_getElem, byteOf_tbox b ⟨n, hn⟩, Vector.getElem_ofFn, vector_get_ofFn]
  refine eq_of_byteOf_eq fun r => ?_
  rw [byteOf_invMixColumn, hentry, matrixRow_gfMul, invMatrix_mul_forward, byteOf_shiftLeft (sbox b) ⟨n, hn⟩]
  split
  · exact gfMul_one_left _
  · exact gfMul_zero_left _

/-- R155, R163: M undoes the diffusion of a standard encryption round and passes over to its key. -/
theorem invMixColumns_encRound (s k : Block) :
    invMixColumns (encRound s k) = addRoundKey (invMixColumns k) (encGather s) :=
  block_eq_of_get_eq fun j => by
    rw [invMixColumns_get, encRound, encGather, addRoundKey_get, invMixColumns_get, vector_get_ofFn, vector_get_ofFn,
      pack_ofFn, pack_eq_xor_shiftLeft]
    simp only [invMixColumn_xor, invMixColumn_tbox, Nat.reduceLT, Nat.reduceMul, Nat.reduceSub, BitVec.shiftLeft_zero]

theorem invMixColumns_addRoundKey (k s : Block) :
    invMixColumns (addRoundKey k s) = addRoundKey (invMixColumns k) (invMixColumns s) :=
  block_eq_of_get_eq fun j => by simp only [invMixColumns_get, addRoundKey_get, invMixColumn_xor]

/-- R160: adding a key twice adds nothing. -/
@[simp] theorem addRoundKey_addRoundKey (k s : Block) : addRoundKey k (addRoundKey k s) = s :=
  block_eq_of_get_eq fun j => by simp only [addRoundKey_get, BitVec.xor_assoc, BitVec.xor_self, BitVec.xor_zero]

/-- A decryption round leads from the gathered bytes after an encryption round to the gathered bytes before it. -/
theorem decRound_encGather_encRound (s k : Block) :
    decRound (encGather (encRound s k)) (invMixColumns k) = encGather s := by
  rw [decRound_invMixColumns, decGather_encGather, invMixColumns_addRoundKey, invMixColumns_encRound,
    addRoundKey_addRoundKey]

/-! ### The round trip (R169) -/

/-- R167: the block after the initial round and `r` standard rounds of the encryption of `p`. -/
def encState (p : Block) (x : Store) (r : Nat) : Block :=
  (List.range r).foldl (fun s m => encRound s (sk x (m + 1))) (addRoundKey (sk x 0) p)

theorem encState_succ (p : Block) (x : Store) (r : Nat) :
    encState p x (r + 1) = encRound (encState p x r) (sk x (r + 1)) := by
  rw [encState, List.range_succ, List.foldl_append]
  rfl

theorem encryptBlock_eq (p : Block) (x : Store) (nr : Nat) :
    encryptBlock p x nr = addRoundKey (sk x nr) (encGather (encState p x (nr - 1))) :=
  encFinal_eq _ _

/-- R137: the round keys of store `y` are those of store `x` in reverse order, the middle ones through invMixColumns. -/
structure KeysMirrored (x y : Store) (nr : Nat) : Prop where
  initial : sk y 0 = sk x nr
  middle : ∀ r, 1 ≤ r → r < nr → sk y r = invMixColumns (sk x (nr - r))
  final : sk y nr = sk x 0

/-- R169, for any two stores of mirrored keys: after `r` of its rounds the decryption stands at the gathered bytes of
the block that the encryption had `r` rounds before its final one. -/
theorem decryptBlock_encryptBlock {x y : Store} {nr : Nat} (h : KeysMirrored x y nr) (hnr : 1 ≤ nr) (p : Block) :
    decryptBlock (encryptBlock p x nr) y nr = p := by
  obtain ⟨hinitial, hmiddle, hfinal⟩ := h
  have hstart : addRoundKey (sk y 0) (encryptBlock p x nr) = encGather (encState p x (nr - 1)) := by
    rw [hinitial, encryptBlock_eq, addRoundKey_addRoundKey]
  have hround (r : Nat) (hpos : 1 ≤ r) (hr : r ≤ nr - 1) :
      encGather (encState p x (nr - 1 - r)) = decRound (encGather (encState p x (nr - 1 - (r - 1)))) (sk y r) := by
    have hprev : nr - 1 - (r - 1) = nr - 1 - r + 1 := by omega
    have hkey : nr - r = nr - 1 - r + 1 := by omega
    rw [hmiddle r hpos (by omega), hprev, hkey, encState_succ, decRound_encGather_encRound]
  rw [decryptBlock_of_rounds (b := fun r => encGather (encState p x (nr - 1 - r))) hstart.symm hround, hfinal,
    decFinal_eq, decGather_encGather, Nat.sub_self]
  exact addRoundKey_addRoundKey _ p

/-- R169, the other order: a decryption of the finitely many blocks that undoes the encryption is also undone by it. -/
theorem encryptBlock_decryptBlock {x y : Store} {nr : Nat} (h : KeysMirrored x y nr) (hnr : 1 ≤ nr) (c : Block) :
    encryptBlock (decryptBlock c y nr) x nr = c := by
  have hundoes : Function.LeftInverse (decryptBlock · y nr) (encryptBlock · x nr) := decryptBlock_encryptBlock h hnr
  have hfinite : Finite Block :=
    Finite.of_injective (fun s : Block => s.get) fun s t hget => block_eq_of_get_eq (congrFun hget)
  exact hundoes.rightInverse_of_surjective (Finite.surjective_of_injective hundoes.injective) c

/-- R138: a round key read from a schedule's store is that row of the schedule. -/
theorem sk_flatten (sch : Schedule) {r : Nat} (hr : r < 15) : sk sch.flatten r = sch.row r :=
  block_eq_of_get_eq fun c => by rw [sk_get, sch.flatten_toList_getD_row c (by omega)]

/-- R137, R139: the two schedules of a key, each in its store. -/
theorem keysMirrored_of_expandKey {key : List Word} {e d : Schedule} (h : expandKey key = .ok (e, d)) :
    KeysMirrored e.flatten d.flatten (key.length + 6) := by
  obtain ⟨hlen, rfl, rfl⟩ := expandKey_ok h
  have hmax : key.length + 6 < 15 := by
    rcases keyLenLegal_iff.1 hlen with hkey | hkey | hkey <;> omega
  refine ⟨?_, fun r hpos hr => ?_, ?_⟩
  · rw [sk_flatten _ (by omega), sk_flatten _ hmax, decSched_row_zero, encSched_row le_rfl (by omega)]
  · rw [sk_flatten _ (by omega), sk_flatten _ (by omega), decSched_row_middle hpos hr,
      encSched_row (by omega) (by omega)]
  · rw [sk_flatten _ hmax, sk_flatten _ (by omega), decSched_row_final (by omega), encSched_row (by omega) (by omega)]

/-! ### The round trip in the block (R184, R185) -/

section
variable {s : State} {p : Pending}

/-- R184: at the core's step ENC leaves the encryption of the latched block in DOUT. -/
theorem exec_enc_dout (hc : s.coreNext p) (hr : roundsLegal s.kinfo.nr = true) (len : Byte) :
    ∃ t, exec (.enc len) s = .next t ∧ t.dout = encryptBlock p.dinl s.esched s.kinfo.nr.toNat := by
  simp [exec, execEnc, completing_eq_some_iff.2 hc, hr]

/-- R185: at the core's step DEC leaves the decryption of the latched block in DOUT. -/
theorem exec_dec_dout (hc : s.coreNext p) (hr : roundsLegal s.kinfo.nr = true) (len : Byte) :
    ∃ t, exec (.dec len) s = .next t ∧ t.dout = decryptBlock p.dinl s.dsched s.kinfo.nr.toNat := by
  simp [exec, execDec, completing_eq_some_iff.2 hc, hr]

/-- R203: a pending ENC was accepted, and so a schedule is held. -/
theorem State.Inv.kvalid_of_pending_enc (h : s.Inv) (hp : s.pend = some p) (hop : p.op = 3) :
    s.status.kvalid = true := by
  obtain ⟨i, hd, ha⟩ := h.pend_accepted p hp
  rw [hop] at hd
  rcases decodeFields_cases hd with ⟨hop', -⟩ | ⟨hop', -⟩ | ⟨-, -, rfl⟩ | ⟨hop', -⟩
  · exact absurd hop' (by decide)
  · exact absurd hop' (by decide)
  · exact (Bool.and_eq_true_iff.1 ha).2
  · exact absurd hop' (by decide)

/-- R29: while a schedule is held, KINFO shows a legal round count, 6 above the key's length. -/
theorem State.Inv.rounds_of_kvalid (h : s.Inv) (hv : s.status.kvalid = true) :
    roundsLegal s.kinfo.nr = true ∧ s.kinfo.nr.toNat = s.kinfo.nk.toNat + 6 := by
  have hk := h.kinfo_legal
  rw [kinfoLegal, if_pos hv] at hk
  rcases hk with ⟨hnk, hnr⟩ | ⟨hnk, hnr⟩ | ⟨hnk, hnr⟩ <;> rw [hnk, hnr] <;> decide

/-- R31: while a schedule is held, the two stores hold mirrored keys for the rounds that KINFO shows. -/
theorem State.Inv.keysMirrored_of_kvalid (h : s.Inv) (hv : s.status.kvalid = true) :
    KeysMirrored s.esched s.dsched s.kinfo.nr.toNat := by
  have hs := h.stores_legal
  rw [storesLegal, if_pos hv] at hs
  obtain ⟨key, e, d, hlen, hkey, hesched, hdsched⟩ := hs
  rw [hesched, hdsched, (h.rounds_of_kvalid hv).2, ← hlen]
  exact keysMirrored_of_expandKey hkey

end

/-- Settles O25: the stores of an expansion, and those of a state that meets the invariant, hold mirrored keys. -/
theorem decryptUndoesEncrypt : Obligations.DecryptUndoesEncrypt := by
  refine ⟨fun key e d p hkey => ?_, fun s u p q hinv hc hop hu _ hdsched hkinfo => ?_⟩
  · have hmirror := keysMirrored_of_expandKey hkey
    exact ⟨decryptBlock_encryptBlock hmirror (by omega) p, encryptBlock_decryptBlock hmirror (by omega) p⟩
  · have hv := hinv.kvalid_of_pending_enc hc.1 hop
    obtain ⟨hlegal, hrounds⟩ := hinv.rounds_of_kvalid hv
    obtain ⟨t, ht, htdout⟩ := exec_enc_dout hc hlegal 4
    obtain ⟨v, hv', hvdout⟩ := exec_dec_dout hu (by rwa [hkinfo]) 4
    refine ⟨t, ht, fun hdin => ⟨v, hv', ?_⟩⟩
    rw [hvdout, hdin, htdout, hdsched, hkinfo]
    exact decryptBlock_encryptBlock (hinv.keysMirrored_of_kvalid hv) (by omega) p.dinl

/-! ### The known-answer vectors (R171) -/

/-- Settles O26: each of the three vectors, evaluated. -/
theorem knownAnswerVectors : Obligations.KnownAnswerVectors := by
  simp only [Obligations.KnownAnswerVectors, List.forall_mem_cons]
  refine ⟨⟨_, _, rfl, ?_⟩, ⟨_, _, rfl, ?_⟩, ⟨_, _, rfl, ?_⟩, nofun⟩
  · decide +kernel
  · decide +kernel
  · decide +kernel

end Sys2Proof.Machine
end

section
/-! PROOFS. The commands (spec/45_commands.md R180 to R188): what the host's issue of a command leaves, what the core's
completion of it leaves, and that neither can fail from a state that meets the invariant. -/

namespace Sys2Proof.Machine

variable {s : State} {p : Pending} {i : Instr}

/-! ### Issue (R181, R187, R202) -/

theorem issue_of_busy (hb : s.status.busy = true) (v : Except ErrCode Instr) : issue v s = overrun s := if_pos hb

theorem issue_error_of_idle (hb : s.status.busy = false) (e : ErrCode) : issue (.error e) s = raiseError e s := by
  rw [issue, hb]
  rfl

theorem issue_ok_of_idle (hb : s.status.busy = false) (i : Instr) : issue (.ok i) s = accept i s := by
  rw [issue, hb]
  rfl

/-- Settles O27: the host's step of a command that validation accepts is `accept`. -/
theorem acceptedIssueLatchesTheCommand : Obligations.AcceptedIssueLatchesTheCommand := by
  intro i s hturn hb ha
  rw [exec_host i hturn, verdict_ok_iff.2 ⟨rfl, ha⟩, issue_ok_of_idle hb]
  rfl

/-- R181: what the validation of a word gives, when it decodes to a command and when it does not. -/
def wordVerdict (v : Word) (st : Status) : Except ErrCode Instr :=
  match decode v with
  | .ok i => verdict i st
  | .error _ => .error .illegalCommand

/-- R181: at the host's step a command write is the issue of its word's verdict. -/
theorem commandWrite_host (v : Word) (hturn : s.coreTurn = false) :
    commandWrite v s = .next (issue (wordVerdict v s.status) s) := by
  unfold commandWrite wordVerdict
  cases decode v with
  | ok i => exact exec_host i hturn
  | error e => rfl

/-- Settles O29: the issue of any verdict while busy is `overrun`. -/
theorem cmdWriteWhileBusyOnlySetsOvr : Obligations.CmdWriteWhileBusyOnlySetsOvr := by
  intro v s hturn hb
  rw [commandWrite_host v hturn, issue_of_busy hb]
  rfl

theorem keyLenLegal_toNat_iff {len : Byte} : keyLenLegal len.toNat = true ↔ len = 4 ∨ len = 6 ∨ len = 8 :=
  ⟨keyLenLegal_toNat_cases, by rintro (rfl | rfl | rfl) <;> rfl⟩

/-- R203: the length of an ENC or a DEC is checked before the schedule. -/
theorem validateBlock_eq_checks (i : Instr) (len : Byte) (st : Status) :
    validateBlock i len st =
      if len ≠ 4 then .error .invalidBlockSize
      else if st.kvalid = false then .error .noSchedule
      else .ok i := by
  rw [validateBlock, blockLenLegal]
  by_cases hlen : len = 4
  · rw [if_pos (beq_iff_eq.2 hlen), if_neg (not_not.2 hlen)]
    cases st.kvalid <;> rfl
  · rw [if_neg (mt beq_iff_eq.1 hlen), if_pos hlen]

/-- R181: the checks of validation in their order; a command that a word encodes has no other. -/
theorem verdict_eq_checks (hwf : i.wellFormed = true) (st : Status) :
    verdict i st =
      if i.op = 2 ∧ ¬ (i.arg = 4 ∨ i.arg = 6 ∨ i.arg = 8) then .error .invalidKeySize
      else if (i.op = 3 ∨ i.op = 4) ∧ i.arg ≠ 4 then .error .invalidBlockSize
      else if (i.op = 3 ∨ i.op = 4) ∧ st.kvalid = false then .error .noSchedule
      else .ok i := by
  cases i with
  | tbl tsel tidx => exact if_pos (of_decide_eq_true hwf)
  | expk len =>
    by_cases hlen : len = 4 ∨ len = 6 ∨ len = 8
    · rw [verdict, validateExpk, if_pos (keyLenLegal_toNat_iff.2 hlen), if_neg fun h => h.2 hlen]
      rfl
    · rw [verdict, validateExpk, if_neg (mt keyLenLegal_toNat_iff.1 hlen), if_pos ⟨rfl, hlen⟩]
  | enc len | dec len => simp [verdict, validateBlock_eq_checks, Instr.op, Instr.arg]

/-- R181: an issue writes STATUS and PEND, and of the rest only the completion schedule. -/
theorem issue_frame (v : Except ErrCode Instr) (s : State) :
    issue v s = { s with
      wait := (issue v s).wait
      issues := (issue v s).issues
      pend := (issue v s).pend
      status := (issue v s).status } := by
  rcases issue_cases v s with ⟨-, h⟩ | ⟨-, e, -, h⟩ | ⟨-, i, -, h⟩ <;> rw [h] <;> rfl

/-- Settles O30: the step is the issue of the word's verdict, and the verdict is given by the checks in their order. -/
theorem commandWriteBranches : Obligations.CommandWriteBranches := by
  intro s v hn
  have hstep : step s = .next (afterHost s (s.hpc + 1) (issue (wordVerdict v s.status) s)) := by
    rw [step_of_hostNext hn, hostStep_write_cmd, commandWrite_host v hn.1, mapNext]
  refine ⟨_, hstep, ?frame, ?branches⟩
  case frame =>
    rw [issue_frame]
    rfl
  case branches =>
    simp only [afterHost_status, afterHost_pend]
    by_cases hbusy : s.status.busy = true
    · rw [issue_of_busy hbusy, if_pos hbusy]
      exact ⟨rfl, rfl⟩
    · have hb : s.status.busy = false := Bool.eq_false_iff.2 hbusy
      rw [if_neg hbusy]
      cases hd : decode v with
      | error e =>
        rw [wordVerdict, hd, issue_error_of_idle hb]
        exact ⟨rfl, rfl⟩
      | ok i =>
        obtain ⟨-, hwf, -⟩ := decode_eq_ok_iff.1 hd
        simp only [wordVerdict, hd, verdict_eq_checks hwf]
        split_ifs <;> simp only [issue_error_of_idle hb, issue_ok_of_idle hb] <;> exact ⟨rfl, rfl⟩

/-! ### The command that completes (R186) -/

/-- R186: the core's step is the command that PEND's fields name. -/
theorem step_of_pending (hc : s.coreNext p) (hd : decodeFields p.op p.tsel p.arg = .ok i) : step s = exec i s := by
  rw [step_of_coreNext hc, coreStep, hd]

theorem step_of_pending_illegal {e : Illegal} (hc : s.coreNext p)
    (hd : decodeFields p.op p.tsel p.arg = .error e) : step s = .fault .pendingIllegal := by
  rw [step_of_coreNext hc, coreStep, hd]

/-- Settles O39: `step_of_pending`, for the command that the fields name. -/
theorem stepCompletesThePendingCommand : Obligations.StepCompletesThePendingCommand :=
  fun _ _ _ hc hd => step_of_pending hc hd

/-! ### Completion of TBL (R182) -/

theorem exec_tbl_core {T : Table} (hc : s.coreNext p) (hT : tableOfTsel p.tsel = some T) (tsel : BitVec 4)
    (tidx : Byte) : exec (.tbl tsel tidx) s = .next (finish { s with tout := tableEntry T p.arg }) := by
  simp only [exec, execTbl, completing_eq_some_iff.2 hc, hT]

theorem tableOfTsel_tselOfTable (T : Table) : tableOfTsel (tselOfTable T) = some T := by
  cases T <;> rfl

/-- R72: each row is a table's, with its TSEL and its entries. -/
theorem tblRows_eq_map : tblRows = tableNames.map fun T => (tselOfTable T, tableEntry T) := rfl

theorem table_of_mem_tblRows {tsel : BitVec 4} {f : Byte → Word} (h : (tsel, f) ∈ tblRows) :
    ∃ T, tableOfTsel tsel = some T ∧ tableEntry T = f := by
  rw [tblRows_eq_map] at h
  obtain ⟨T, -, hT⟩ := List.mem_map.1 h
  cases hT
  exact ⟨T, tableOfTsel_tselOfTable T, rfl⟩

/-- Settles O31: the row's TSEL selects the table whose entries the row gives. -/
theorem tblCompletionWritesTout : Obligations.TblCompletionWritesTout := by
  rintro s p _ _ f hrow hc - rfl rfl
  obtain ⟨T, hT, rfl⟩ := table_of_mem_tblRows hrow
  exact exec_tbl_core hc hT _ _

/-! ### Completion of EXPK (R183) -/

theorem exec_expk_core {e d : Schedule} (hc : s.coreNext p) (hlen : keyLenLegal p.arg.toNat = true)
    (hkey : expandKey (p.keyl.toList.take p.arg.toNat) = .ok (e, d)) (len : Byte) :
    exec (.expk len) s = .next (finishExpand p.arg { s with esched := e.flatten, dsched := d.flatten }) := by
  simp only [exec, execExpk, completing_eq_some_iff.2 hc, hlen, hkey, if_true]

theorem exec_expk_core_fault (hc : s.coreNext p) (hlen : ¬ keyLenLegal p.arg.toNat = true) (len : Byte) :
    exec (.expk len) s = .fault .pendingIllegal := by
  simp [exec, execExpk, completing_eq_some_iff.2 hc, hlen]

/-- R139, R183: the expansion of the first LEN latched words succeeds for every legal LEN. -/
theorem exists_expandKey_take {n : Nat} (hn : keyLenLegal n = true) (k : KeyRegs) :
    ∃ e d, expandKey (k.toList.take n) = .ok (e, d) := by
  have hmax : n ≤ 8 := by
    rcases keyLenLegal_iff.1 hn with rfl | rfl | rfl <;> decide
  have hlength : (k.toList.take n).length = n := by
    rw [List.length_take, Vector.length_toList, Nat.min_eq_left hmax]
  exact ⟨_, _, if_pos (by rwa [hlength])⟩

/-- Settles O32: a legal LEN has an expansion, and KINFO shows LEN and LEN + 6. -/
theorem expkCompletionWritesTheSchedules : Obligations.ExpkCompletionWritesTheSchedules := by
  rintro s p _ hlegal hc - - rfl
  have hlen := keyLenLegal_toNat_iff.2 hlegal
  obtain ⟨e, d, hkey⟩ := exists_expandKey_take hlen p.keyl
  refine ⟨e, d, hkey, ?_⟩
  rw [exec_expk_core hc hlen hkey, BitVec.ofNat_add, BitVec.ofNat_toNat]
  rfl

/-- D24: key registers that agree below `n` have the same first `n` words. -/
theorem toList_take_congr {n : Nat} {k k' : KeyRegs} (h : ∀ j : Fin 8, j.val < n → k.get j = k'.get j) :
    k.toList.take n = k'.toList.take n := by
  refine List.ext_getElem (by simp) fun j hj _ => ?_
  have hlt : j < n ∧ j < 8 := by simpa using hj
  simpa [Vector.get_eq_getElem] using h ⟨j, hlt.2⟩ hlt.1

theorem coreNext_set_keyl (hc : s.coreNext p) (k : KeyRegs) :
    State.coreNext { s with pend := some { p with keyl := k } } { p with keyl := k } := ⟨rfl, hc.2⟩

/-- R183: an EXPK answers the same for any latched words that agree on the first LEN. -/
theorem exec_expk_set_keyl {k : KeyRegs} (hc : s.coreNext p)
    (hagree : ∀ j : Fin 8, j.val < p.arg.toNat → k.get j = p.keyl.get j) (len : Byte) :
    exec (.expk len) { s with pend := some { p with keyl := k } } = exec (.expk len) s := by
  have hc' := coreNext_set_keyl hc k
  by_cases hlen : keyLenLegal p.arg.toNat = true
  · obtain ⟨e, d, hkey⟩ := exists_expandKey_take hlen p.keyl
    rw [exec_expk_core hc hlen hkey, exec_expk_core hc' hlen (by rwa [toList_take_congr hagree])]
    rfl
  · rw [exec_expk_core_fault hc hlen, exec_expk_core_fault hc' hlen]

/-- Settles O36: the completion of an EXPK reads the latched words only through the expansion of the first LEN. -/
theorem expkIgnoresTheOtherKeyWords : Obligations.ExpkIgnoresTheOtherKeyWords := by
  intro s p k hc hop hagree
  have hc' := coreNext_set_keyl hc k
  cases hd : decodeFields p.op p.tsel p.arg with
  | error e => rw [step_of_pending_illegal hc hd, step_of_pending_illegal hc' hd]
  | ok i =>
    obtain ⟨hop', -, -⟩ := fields_of_decodeFields hd
    rw [step_of_pending hc hd, step_of_pending hc' hd]
    cases i with
    | expk len => rw [exec_expk_set_keyl hc hagree len]
    | tbl | enc | dec => cases hop'.trans hop

/-! ### Completion of ENC and DEC (R184, R185) -/

theorem roundsLegal_iff {nr : BitVec 4} : roundsLegal nr = true ↔ nr = 10 ∨ nr = 12 ∨ nr = 14 := by
  simp [roundsLegal, or_assoc]

theorem exec_enc_core (hc : s.coreNext p) (hr : roundsLegal s.kinfo.nr = true) (len : Byte) :
    exec (.enc len) s = .next (finish { s with dout := encryptBlock p.dinl s.esched s.kinfo.nr.toNat }) := by
  simp only [exec, execEnc, completing_eq_some_iff.2 hc, hr, if_true]

theorem exec_dec_core (hc : s.coreNext p) (hr : roundsLegal s.kinfo.nr = true) (len : Byte) :
    exec (.dec len) s = .next (finish { s with dout := decryptBlock p.dinl s.dsched s.kinfo.nr.toNat }) := by
  simp only [exec, execDec, completing_eq_some_iff.2 hc, hr, if_true]

theorem exec_enc_core_fault (hc : s.coreNext p) (hr : ¬ roundsLegal s.kinfo.nr = true) (len : Byte) :
    exec (.enc len) s = .fault .scheduleIllegal := by
  simp [exec, execEnc, completing_eq_some_iff.2 hc, hr]

theorem exec_dec_core_fault (hc : s.coreNext p) (hr : ¬ roundsLegal s.kinfo.nr = true) (len : Byte) :
    exec (.dec len) s = .fault .scheduleIllegal := by
  simp [exec, execDec, completing_eq_some_iff.2 hc, hr]

/-- Settles O33: the round count is legal, so the completion writes DOUT and ends. -/
theorem encCompletionWritesDout : Obligations.EncCompletionWritesDout :=
  fun _ _ hnr hc _ _ _ => exec_enc_core hc (roundsLegal_iff.2 hnr) 4

/-- Settles O34: as for ENC. -/
theorem decCompletionWritesDout : Obligations.DecCompletionWritesDout :=
  fun _ _ hnr hc _ _ _ => exec_dec_core hc (roundsLegal_iff.2 hnr) 4

/-! ### Which completions fail (R161, R183, R186) -/

/-- Settles O37: the fields name no command, or an EXPK whose length check fails, or an ENC or DEC with no rounds. -/
theorem completionFaultsOnNoCommandNoKeyLengthOrNoRoundCount :
    Obligations.CompletionFaultsOnNoCommandNoKeyLengthOrNoRoundCount := by
  intro s p hc
  refine ⟨fun e hd => step_of_pending_illegal hc hd, fun hop htsel h4 h6 h8 => ?expk,
    fun hop htsel h10 h12 h14 => ?block⟩
  case expk =>
    have hlen := mt keyLenLegal_toNat_iff.1 (not_or.2 ⟨h4, not_or.2 ⟨h6, h8⟩⟩)
    rw [step_of_pending (i := .expk p.arg) hc (decodeFields_eq_ok_iff.2 ⟨rfl, hop.symm, htsel.symm, rfl⟩)]
    exact exec_expk_core_fault hc hlen p.arg
  case block =>
    have hr := mt roundsLegal_iff.1 (not_or.2 ⟨h10, not_or.2 ⟨h12, h14⟩⟩)
    rcases hop with hop | hop
    · rw [step_of_pending (i := .enc p.arg) hc (decodeFields_eq_ok_iff.2 ⟨rfl, hop.symm, htsel.symm, rfl⟩)]
      exact exec_enc_core_fault hc hr p.arg
    · rw [step_of_pending (i := .dec p.arg) hc (decodeFields_eq_ok_iff.2 ⟨rfl, hop.symm, htsel.symm, rfl⟩)]
      exact exec_dec_core_fault hc hr p.arg

/-! ### Steps from a state that meets the invariant (R186, R205, R207) -/

theorem exists_table_of_le {tsel : BitVec 4} (h : tsel ≤ 9) : ∃ T, tableOfTsel tsel = some T := by
  rw [← Option.isSome_iff_exists]
  revert tsel
  decide

/-- R186: a pending command was accepted, and so its completion answers a next state. -/
theorem State.Inv.completes (h : s.Inv) (hc : s.coreNext p) : ∃ t, step s = .next t := by
  obtain ⟨i, hd, ha⟩ := h.pend_accepted p hc.1
  rw [step_of_pending hc hd]
  obtain ⟨-, htsel, harg⟩ := fields_of_decodeFields hd
  cases i with
  | tbl tsel tidx =>
    obtain ⟨T, hT⟩ := exists_table_of_le (of_decide_eq_true ha)
    exact ⟨_, exec_tbl_core hc (by rw [← htsel]; exact hT) tsel tidx⟩
  | expk len =>
    have hlen : keyLenLegal p.arg.toNat = true := by rwa [← harg, keyLenLegal_toNat]
    obtain ⟨e, d, hkey⟩ := exists_expandKey_take hlen p.keyl
    exact ⟨_, exec_expk_core hc hlen hkey len⟩
  | enc len => exact ⟨_, exec_enc_core hc (h.rounds_of_kvalid (Bool.and_eq_true_iff.1 ha).2).1 len⟩
  | dec len => exact ⟨_, exec_dec_core hc (h.rounds_of_kvalid (Bool.and_eq_true_iff.1 ha).2).1 len⟩

/-- R205: at the host's step a write that reaches the register map is no fault. -/
theorem exists_memWrite_next (off : Nat) (v : Word) (hturn : s.coreTurn = false) : ∃ t, memWrite off v s = .next t := by
  rcases memWrite_cases off v s with ⟨-, e⟩ | ⟨i, -, -, -, e⟩ | ⟨i, -, -, -, e⟩ | ⟨-, -, -, e⟩
  · exact ⟨_, e.trans (commandWrite_host v hturn)⟩
  all_goals exact ⟨_, e⟩

/-- R205: a host step answers a next state or is refused. -/
theorem hostStep_next_or_refused (st : HostStmt) (hturn : s.coreTurn = false) :
    (∃ t, hostStep st s = .next t) ∨ ∃ r, hostStep st s = .refused r := by
  cases st with
  | read off n name =>
    rw [hostStep, hostRead]
    split
    · exact .inl ⟨_, rfl⟩
    · exact .inr ⟨_, rfl⟩
  | write off n v =>
    obtain ⟨t, ht⟩ := exists_memWrite_next off v hturn
    rw [hostStep, hostWrite, ht]
    split
    · exact .inl ⟨_, rfl⟩
    · exact .inr ⟨_, rfl⟩
  | bnz name mask target => exact .inl ⟨_, rfl⟩
  | reset => exact .inl ⟨_, rfl⟩

theorem State.Inv.step_next_or_refused (h : s.Inv) : (∃ t, step s = .next t) ∨ ∃ r, step s = .refused r := by
  rcases coreNext_or_hostNext_or_idle s with ⟨p, hc⟩ | ⟨st, hn⟩ | ⟨hp, hst⟩
  · exact .inl (h.completes hc)
  · rw [step_of_hostNext hn]
    exact hostStep_next_or_refused st hn.1
  · exact .inl ⟨s, by rw [step, hp, hst]⟩

/-- Settles O51: no step is a fault, and R51 says which are refused. -/
theorem invariantStatesStepSafely : Obligations.InvariantStatesStepSafely := by
  intro s h
  rw [stepSafe]
  rcases h.step_next_or_refused with ⟨t, ht⟩ | ⟨r, hr⟩
  · rw [ht]
    trivial
  · obtain ⟨off, n, hbad, -⟩ := (onlyBadAccessesAreRefused s r).1 hr
    rw [hr]
    exact ⟨off, n, hbad⟩

end Sys2Proof.Machine
end

section
/-! PROOFS. Rejected commands (spec/60_exceptions.md R202, R203), and the machine when neither agent has a step
(spec/70_reset_and_hazards.md R214, R231). -/

namespace Sys2Proof.Machine

variable {s : State}

/-! ### What validation answers for each rejected form (R202, R203) -/

theorem verdict_tbl_illegal {tsel : BitVec 4} (h : 9 < tsel) (tidx : Byte) (st : Status) :
    verdict (.tbl tsel tidx) st = .error .illegalCommand := if_neg (BitVec.not_le.2 h)

theorem verdict_expk_illegal {len : Byte} (h : ¬ (len = 4 ∨ len = 6 ∨ len = 8)) (st : Status) :
    verdict (.expk len) st = .error .invalidKeySize := if_neg (mt keyLenLegal_toNat_iff.1 h)

/-- R203: a LEN other than 4 is reported whatever KVALID is. -/
theorem validateBlock_of_ne_four {len : Byte} (h : len ≠ 4) (i : Instr) (st : Status) :
    validateBlock i len st = .error .invalidBlockSize := by
  rw [validateBlock_eq_checks, if_pos h]

theorem validateBlock_of_not_kvalid {st : Status} (h : st.kvalid = false) (i : Instr) :
    validateBlock i 4 st = .error .noSchedule := by
  rw [validateBlock_eq_checks, if_neg (not_not.2 rfl), if_pos h]

/-- R202: at the host's step of an idle block, a command that validation rejects is a raise of its code. -/
theorem exec_of_verdict_error {i : Instr} {e : ErrCode} (hturn : s.coreTurn = false) (hb : s.status.busy = false)
    (hv : verdict i s.status = .error e) : exec i s = .next (raiseError e s) := by
  rw [exec_host i hturn, hv, issue_error_of_idle hb]

/-- Settles O28: each form fails validation with its code, and the issue of a failed validation is `raiseError`. -/
theorem rejectedIssueOnlyReports : Obligations.RejectedIssueOnlyReports := by
  intro s tsel b hturn hb
  have reject {i e} := @exec_of_verdict_error s i e hturn hb
  refine ⟨fun v e hd => ?word, fun htsel => ?tbl, fun h4 h6 h8 => ?expk, fun hlen => ?size, fun hkv => ?schedule⟩
  case word => exact commandWrite_of_decode_error hd hb
  case tbl => exact reject (verdict_tbl_illegal htsel b s.status)
  case expk => exact reject (verdict_expk_illegal (not_or.2 ⟨h4, not_or.2 ⟨h6, h8⟩⟩) s.status)
  case size => exact ⟨reject (validateBlock_of_ne_four hlen _ _), reject (validateBlock_of_ne_four hlen _ _)⟩
  case schedule => exact ⟨reject (validateBlock_of_not_kvalid hkv _), reject (validateBlock_of_not_kvalid hkv _)⟩

/-! ### Neither agent has a step (R214, R231) -/

theorem step_of_idle (hcore : s.completing = none) (hhost : s.nextStmt = none) : step s = .next s := by
  rw [step, hcore, hhost]

/-- Settles O40: with PEND none the core has no completion to take. -/
theorem idleMachineHoldsItsState : Obligations.IdleMachineHoldsItsState :=
  fun _ hpend hhost => step_of_idle (completing_eq_none (coreTurn_eq_false_of_pend hpend)) hhost

end Sys2Proof.Machine
end

section
/-! PROOFS. Reset, hazards and the form of the timing (spec/70_reset_and_hazards.md R220 to R230): what reset leaves, what
the host can do while a command is pending, that the command completes, at which round count its latency is taken, and
that data decides nothing but data. -/

namespace Sys2Proof.Machine

variable {s t u : State} {p q : Pending}

/-! ### Reset (R220) -/

theorem step_of_reset (hn : s.hostNext .reset) : step s = .next (afterHost s (s.hpc + 1) (resetInput s)) := by
  rw [step_of_hostNext hn, hostStep]

theorem statusWord_reset : statusWord State.reset.status = 0 := by decide

theorem kinfoWord_reset : kinfoWord State.reset.kinfo = 0 := by decide

/-- Settles O42: the step is `resetInput`, and each register then holds its reset value. -/
theorem resetClearsTheWholeRecord : Obligations.ResetClearsTheWholeRecord :=
  fun _ hn => ⟨_, step_of_reset hn, Vector.get_replicate _ 0, Vector.get_replicate _ 0, Vector.get_replicate _ 0, rfl,
    Vector.get_replicate _ 0, Vector.get_replicate _ 0, rfl, rfl, rfl,
    (memRead_of_regOffset (reg := .status) rfl _).trans statusWord_reset,
    (memRead_of_regOffset (reg := .kinfo) rfl _).trans kinfoWord_reset, rfl, rfl, rfl, rfl⟩

/-! ### The host's steps while a command is pending (R187, R225) -/

/-- R187: while BUSY = 1 a write changes KEY, DIN and OVR at most. -/
theorem memWrite_of_busy {off : Nat} {v : Word} (hturn : s.coreTurn = false) (hb : s.status.busy = true)
    (h : memWrite off v s = .next u) :
    ∃ k d ovr, u = { s with key := k, din := d, status := { s.status with ovr := ovr } } := by
  rcases memWrite_cases off v s with ⟨-, e⟩ | ⟨i, -, -, -, e⟩ | ⟨i, -, -, -, e⟩ | ⟨-, -, -, e⟩ <;> rw [e] at h
  · rw [commandWrite_host v hturn, issue_of_busy hb] at h
    cases h
    exact ⟨s.key, s.din, true, rfl⟩
  · cases h
    exact ⟨_, s.din, s.status.ovr, rfl⟩
  · cases h
    exact ⟨s.key, _, s.status.ovr, rfl⟩
  · cases h
    exact ⟨s.key, s.din, s.status.ovr, rfl⟩

/-- R225: while BUSY = 1 a host step other than reset changes KEY, DIN, OVR and the host's own fields at most. -/
theorem hostStep_of_busy {st : HostStmt} (hturn : s.coreTurn = false) (hb : s.status.busy = true) (hst : st ≠ .reset)
    (h : hostStep st s = .next t) :
    ∃ pc k d ovr reads, t = afterHost s pc
      { s with key := k, din := d, status := { s.status with ovr := ovr }, reads := reads } := by
  cases st with
  | read off n name =>
    obtain ⟨u, hu, rfl⟩ := mapNext_eq_next.1 h
    unfold hostRead at hu
    split at hu
    · cases hu
      exact ⟨_, s.key, s.din, s.status.ovr, _, rfl⟩
    · cases hu
  | write off n v =>
    obtain ⟨u, hu, rfl⟩ := mapNext_eq_next.1 h
    unfold hostWrite at hu
    split at hu
    · obtain ⟨k, d, ovr, rfl⟩ := memWrite_of_busy hturn hb hu
      exact ⟨_, k, d, ovr, s.reads, rfl⟩
    · cases hu
  | bnz name mask target =>
    cases h
    exact ⟨_, s.key, s.din, s.status.ovr, s.reads, rfl⟩
  | reset => exact absurd rfl hst

/-- R21: BUSY = 1 while a command is pending. -/
theorem State.Inv.busy_of_pend (h : s.Inv) (hp : s.pend.isSome = true) : s.status.busy = true := h.busy_pend.trans hp

/-- Settles O55: none of what `hostStep_of_busy` lets change is a result, a schedule or the pending command. -/
theorem hostStepsKeepThePendingCommand : Obligations.HostStepsKeepThePendingCommand := by
  intro s t st h hp hn hst hstep
  have hb := h.busy_of_pend hp
  rw [step_of_hostNext hn] at hstep
  obtain ⟨pc, k, d, ovr, reads, rfl⟩ := hostStep_of_busy hn.1 hb hst hstep
  exact ⟨rfl, rfl, rfl, rfl, rfl, rfl, rfl, hb, if_pos hp⟩

/-! ### The pending command completes (R186, R226) -/

/-- R186: the core's step that answers a next state is the execution of the command that PEND names. -/
theorem exec_of_core_step (hc : s.coreNext p) (h : step s = .next t) :
    ∃ i, decodeFields p.op p.tsel p.arg = .ok i ∧ exec i s = .next t := by
  cases hd : decodeFields p.op p.tsel p.arg with
  | ok i => exact ⟨i, rfl, step_of_pending hc hd ▸ h⟩
  | error e => cases (step_of_pending_illegal hc hd).symm.trans h

/-- R186: a completion clears PEND. -/
theorem pend_of_core_step (hc : s.coreNext p) (h : step s = .next t) : t.pend = none := by
  obtain ⟨i, -, he⟩ := exec_of_core_step hc h
  rcases exec_core_cases hc he with ⟨_, _, _, -, -, rfl⟩ | ⟨_, _, _, -, -, -, rfl⟩ | ⟨_, -, -, rfl⟩ | ⟨_, -, -, rfl⟩ <;>
    rfl

theorem wait_ne_zero_of_host_turn (hturn : s.coreTurn = false) (hp : s.pend.isSome = true) : s.wait ≠ 0 := by
  intro hw
  simp [State.coreTurn, hp, hw] at hturn

/-- R226: a step with a command pending is refused, ends the command, or brings its completion one step nearer. -/
theorem State.Inv.pending_step (h : s.Inv) (hp : s.pend.isSome = true) :
    (∃ r, step s = .refused r) ∨
    ∃ t, step s = .next t ∧ (t.pend = none ∨ (t.Inv ∧ t.pend.isSome = true ∧ t.wait + 1 = s.wait)) := by
  rcases h.step_next_or_refused with ⟨t, ht⟩ | hr
  case inr => exact .inl hr
  refine .inr ⟨t, ht, ?_⟩
  rcases coreNext_or_hostNext_or_idle s with ⟨p, hc⟩ | ⟨st, hn⟩ | ⟨hcore, hhost⟩
  · exact .inl (pend_of_core_step hc ht)
  · by_cases hst : st = .reset
    · subst hst
      cases (step_of_reset hn).symm.trans ht
      exact .inl rfl
    · obtain ⟨hpend, -, -, -, -, -, -, -, hwait⟩ := hostStepsKeepThePendingCommand s t st h hp hn hst ht
      have hpos := wait_ne_zero_of_host_turn hn.1 hp
      exact .inr ⟨stepKeepsTheInvariant s t h ht, hpend ▸ hp, by omega⟩
  · obtain ⟨p, hp⟩ := Option.isSome_iff_exists.1 hp
    rw [completing_eq_some_iff.2 ⟨hp, .inr hhost⟩] at hcore
    cases hcore

theorem run_succ_of_next {M : Host.Core} {a b : M.State} (h : M.step a = .next b) (k : Nat) :
    M.run (k + 1) a = M.run k b := by
  rw [Host.Core.run, h]

theorem run_succ_of_refused {M : Host.Core} {a : M.State} {r : M.Refusal} (h : M.step a = .refused r) (k : Nat) :
    M.run (k + 1) a = .refused r := by
  rw [Host.Core.run, h]

/-- R226: with fewer than `n` host steps to go, the command ends or the host's step is refused within `n` steps. -/
theorem State.Inv.pending_ends {n : Nat} (h : s.Inv) (hp : s.pend.isSome = true) (hw : s.wait < n) :
    ∃ k ≤ n, (∃ t, Sys2Proof.core.run k s = .next t ∧ t.pend = none) ∨ ∃ r, Sys2Proof.core.run k s = .refused r := by
  induction n generalizing s with
  | zero => exact absurd hw (Nat.not_lt_zero _)
  | succ n ih =>
    rcases h.pending_step hp with ⟨r, hr⟩ | ⟨t, ht, hend | ⟨hinv, hpend, hwait⟩⟩
    · exact ⟨1, by omega, .inr ⟨r, run_succ_of_refused hr 0⟩⟩
    · exact ⟨1, by omega, .inl ⟨t, run_succ_of_next ht 0, hend⟩⟩
    · obtain ⟨k, hk, hrun⟩ := ih hinv hpend (by omega)
      refine ⟨k + 1, by omega, ?_⟩
      rwa [run_succ_of_next (M := Sys2Proof.core) ht]

/-- Settles O56, by induction on the bound. -/
theorem pendingCommandCompletesInTime : Obligations.PendingCommandCompletesInTime :=
  fun _ h hp => h.pending_ends hp (Nat.lt_succ_self _)

/-! ### The form of the latency (R230) -/

/-- R29: the round counts that KINFO can show. -/
theorem State.Inv.rounds_cases (h : s.Inv) :
    s.kinfo.nr.toNat = 0 ∨ s.kinfo.nr.toNat = 10 ∨ s.kinfo.nr.toNat = 12 ∨ s.kinfo.nr.toNat = 14 := by
  have hk := h.kinfo_legal
  unfold kinfoLegal at hk
  split at hk
  · rcases hk with ⟨-, hnr⟩ | ⟨-, hnr⟩ | ⟨-, hnr⟩ <;> rw [hnr] <;> decide
  · rw [hk.2]
    exact .inl rfl

/-- R230: the latency of an accepted command is taken at one of the four round counts. -/
theorem State.Inv.latencyRounds_cases (h : s.Inv) {i : Instr} (ha : acceptable i s.status.kvalid = true) :
    latencyRounds i s = 0 ∨ latencyRounds i s = 10 ∨ latencyRounds i s = 12 ∨ latencyRounds i s = 14 := by
  cases i with
  | expk len =>
    rcases keyLenLegal_toNat_cases (len := len) (by rwa [keyLenLegal_toNat]) with rfl | rfl | rfl <;>
      simp [latencyRounds]
  | tbl | enc | dec => exact h.rounds_cases

/-- R203, R230: an accepted ENC or DEC has a schedule, and so a round count other than 0. -/
theorem State.Inv.latencyRounds_ne_zero (h : s.Inv) {i : Instr} (ha : acceptable i s.status.kvalid = true)
    (hop : i.op = 3 ∨ i.op = 4) : latencyRounds i s ≠ 0 := by
  have hrounds (hkv : s.status.kvalid = true) : s.kinfo.nr.toNat ≠ 0 := by
    have := (h.rounds_of_kvalid hkv).2
    omega
  cases i with
  | enc len | dec len => exact hrounds (Bool.and_eq_true_iff.1 ha).2
  | tbl | expk => simp [Instr.op] at hop

/-- R183: the completion of an EXPK of LEN words leaves the round count LEN + 6 in KINFO. -/
theorem rounds_of_expk_step (hc : s.coreNext p) (hop : p.op = 2) (h : step s = .next t) :
    t.kinfo.nr.toNat = p.arg.toNat + 6 := by
  obtain ⟨i, hd, he⟩ := exec_of_core_step hc h
  obtain ⟨hiop, -, -⟩ := fields_of_decodeFields hd
  rcases exec_core_cases hc he with ⟨_, _, _, rfl, -⟩ | ⟨_, _, _, -, hlen, -, rfl⟩ | ⟨_, rfl, -⟩ | ⟨_, rfl, -⟩
  case inr.inl =>
    rw [finishExpand_kinfo]
    rcases keyLenLegal_toNat_cases hlen with hl | hl | hl <;> rw [hl] <;> rfl
  all_goals cases hiop.trans hop

/-- R230: for EXPK the round count is that of the schedule being made. -/
theorem latencyRounds_of_expk {i : Instr} (hop : i.op = 2) : latencyRounds i s = i.arg.toNat + 6 := by
  cases i with
  | expk len => rfl
  | tbl | enc | dec => simp [Instr.op] at hop

/-- R230: for the other commands it is KINFO's. -/
theorem latencyRounds_of_not_expk {i : Instr} (hop : i.op ≠ 2) : latencyRounds i s = s.kinfo.nr.toNat := by
  cases i with
  | expk len => exact absurd rfl hop
  | tbl | enc | dec => rfl

/-- Settles O57: the round count is `latencyRounds`, and an EXPK's completion leaves it in KINFO. -/
theorem latencyDependsOnOpcodeAndRounds : Obligations.LatencyDependsOnOpcodeAndRounds := by
  intro i s h ha
  refine ⟨latencyRounds i s, h.latencyRounds_cases ha, rfl, Nat.succ_pos _, latencyRounds_of_not_expk,
    h.latencyRounds_ne_zero ha, latencyRounds_of_expk, fun u t p hop hc hpop hparg hstep => ?_⟩
  rw [rounds_of_expk_step hc (hpop.trans hop) hstep, hparg, latencyRounds_of_expk hop]

/-! ### Data decides nothing but data (R229) -/

/-- R186: two states that agree on what is not data have their completions at the same point, of the same fields. -/
theorem coreNext_of_control (h : s.control = u.control) (hc : s.coreNext p) :
    ∃ q, u.coreNext q ∧ q.op = p.op ∧ q.tsel = p.tsel ∧ q.arg = p.arg := by
  obtain ⟨hp, hw⟩ := hc
  obtain ⟨-, -, hpend, hprog, hhpc, hwait, -⟩ := control_eq_iff.1 h
  rw [control_pend, control_pend, hp] at hpend
  obtain ⟨q, hq, hpq⟩ := Option.map_eq_some_iff.1 hpend.symm
  rw [Pending.mk.injEq] at hpq
  obtain ⟨hop, htsel, harg, -⟩ := hpq
  exact ⟨q, ⟨hq, by rwa [← hwait, State.nextStmt, ← hprog, ← hhpc]⟩, hop, htsel, harg⟩

theorem mapNext_control_next (h : s.control = u.control) :
    mapNext State.control (.next s) = mapNext State.control (.next u) := congrArg Host.Outcome.next h

/-- R182 to R185: what the completion of a command does to what is not data depends only on what is not data. -/
theorem exec_core_control (h : s.control = u.control) (hs : s.coreNext p) (hu : u.coreNext q) (htsel : q.tsel = p.tsel)
    (harg : q.arg = p.arg) (i : Instr) : mapNext State.control (exec i s) = mapNext State.control (exec i u) := by
  have hkinfo : s.kinfo = u.kinfo := (control_eq_iff.1 h).2.1
  cases i with
  | tbl tsel tidx =>
    simp only [exec, execTbl, completing_eq_some_iff.2 hs, completing_eq_some_iff.2 hu, htsel]
    cases tableOfTsel p.tsel with
    | none => rfl
    | some T => exact mapNext_control_next (finish_control h)
  | expk len =>
    by_cases hlen : keyLenLegal p.arg.toNat = true
    · have hlen' : keyLenLegal q.arg.toNat = true := by rw [harg, hlen]
      obtain ⟨e, d, hkey⟩ := exists_expandKey_take hlen p.keyl
      obtain ⟨e', d', hkey'⟩ := exists_expandKey_take hlen' q.keyl
      rw [exec_expk_core hs hlen hkey, exec_expk_core hu hlen' hkey', harg]
      exact mapNext_control_next (finishExpand_control (by simpa only [control_set_stores] using h) p.arg)
    · have hlen' : ¬ keyLenLegal q.arg.toNat = true := by rwa [harg]
      rw [exec_expk_core_fault hs hlen, exec_expk_core_fault hu hlen']
  | enc len =>
    by_cases hr : roundsLegal s.kinfo.nr = true
    · rw [exec_enc_core hs hr, exec_enc_core hu (hkinfo ▸ hr)]
      exact mapNext_control_next (finish_control h)
    · rw [exec_enc_core_fault hs hr, exec_enc_core_fault hu (hkinfo ▸ hr)]
  | dec len =>
    by_cases hr : roundsLegal s.kinfo.nr = true
    · rw [exec_dec_core hs hr, exec_dec_core hu (hkinfo ▸ hr)]
      exact mapNext_control_next (finish_control h)
    · rw [exec_dec_core_fault hs hr, exec_dec_core_fault hu (hkinfo ▸ hr)]

/-- R186: the completion, of the same fields in both states. -/
theorem coreStep_control (h : s.control = u.control) (hs : s.coreNext p) (hu : u.coreNext q) (hop : q.op = p.op)
    (htsel : q.tsel = p.tsel) (harg : q.arg = p.arg) :
    mapNext State.control (coreStep p s) = mapNext State.control (coreStep q u) := by
  rw [coreStep, coreStep, hop, htsel, harg]
  cases decodeFields p.op p.tsel p.arg with
  | error e => rfl
  | ok i => exact exec_core_control h hs hu htsel harg i

/-- R53, R181: a write at the host's step; validation reads STATUS and the word alone. -/
theorem memWrite_control (h : s.control = u.control) (hs : s.coreTurn = false) (hu : u.coreTurn = false) (off : Nat)
    (v : Word) : mapNext State.control (memWrite off v s) = mapNext State.control (memWrite off v u) := by
  obtain ⟨hstatus, -⟩ := control_eq_iff.1 h
  unfold memWrite
  cases regAt off with
  | cmd =>
    simp only [commandWrite_host v hs, commandWrite_host v hu, hstatus]
    exact mapNext_control_next (issue_control h _)
  | _ => exact mapNext_control_next h

theorem hostRead_control (h : s.control = u.control) (off n name : Nat) :
    mapNext State.control (hostRead off n name s) = mapNext State.control (hostRead off n name u) := by
  unfold hostRead
  split
  · exact mapNext_control_next h
  · rfl

theorem hostWrite_control (h : s.control = u.control) (hs : s.coreTurn = false) (hu : u.coreTurn = false)
    (off n : Nat) (v : Word) :
    mapNext State.control (hostWrite off n v s) = mapNext State.control (hostWrite off n v u) := by
  unfold hostWrite
  split
  · exact memWrite_control h hs hu off v
  · rfl

theorem resetInput_control (h : s.control = u.control) : (resetInput s).control = (resetInput u).control := by
  obtain ⟨-, -, -, hprog, hhpc, hwait, hissues⟩ := control_eq_iff.1 h
  exact control_eq_iff.2 ⟨rfl, rfl, rfl, hprog, hhpc, hwait, hissues⟩

/-- What a host step does to its own fields depends on the state before it only through PEND being held or not. -/
theorem afterHost_eq_of_control (h : s.control = u.control) (pc : Nat) : afterHost s pc = afterHost u pc := by
  have hp : s.pend.isSome = u.pend.isSome := by simpa using congrArg (fun x => x.pend.isSome) h
  funext t
  rw [afterHost, afterHost, hp]

theorem mapNext_control_afterHost (s : State) (pc : Nat) (a : Result) :
    mapNext State.control (mapNext (afterHost s pc) a) = mapNext (afterHost s pc) (mapNext State.control a) := by
  cases a <;> rfl

theorem mapNext_afterHost_control (h : s.control = u.control) {a b : Result}
    (hab : mapNext State.control a = mapNext State.control b) (pc : Nat) :
    mapNext State.control (mapNext (afterHost s pc) a) = mapNext State.control (mapNext (afterHost u pc) b) := by
  rw [mapNext_control_afterHost, mapNext_control_afterHost, hab, afterHost_eq_of_control h]

/-- R79: the host's step; what a branch reads is what the host's reads returned. -/
theorem hostStep_control (h : s.control = u.control) (hreads : s.reads = u.reads) (hs : s.coreTurn = false)
    (hu : u.coreTurn = false) (st : HostStmt) :
    mapNext State.control (hostStep st s) = mapNext State.control (hostStep st u) := by
  obtain ⟨-, -, -, -, hhpc, -⟩ := control_eq_iff.1 h
  cases st with
  | read off n name =>
    rw [hostStep, hostStep, hhpc]
    exact mapNext_afterHost_control h (hostRead_control h off n name) _
  | write off n v =>
    rw [hostStep, hostStep, hhpc]
    exact mapNext_afterHost_control h (hostWrite_control h hs hu off n v) _
  | bnz name mask target =>
    have hpc : branchTarget name mask target s = branchTarget name mask target u := by
      rw [branchTarget, branchTarget, hostValue, hostValue, hreads, hhpc]
    rw [hostStep, hostStep, hpc]
    exact mapNext_control_next (afterHost_control h h _)
  | reset =>
    rw [hostStep, hostStep, hhpc]
    exact mapNext_control_next (afterHost_control h (resetInput_control h) _)

/-- Settles O59: the two states' next steps are of the same agent, and that agent's step does the same to both. -/
theorem controlDoesNotDependOnData : Obligations.ControlDoesNotDependOnData := by
  intro s u h hreads
  have hturn : s.coreTurn = u.coreTurn := by rw [← control_coreTurn, h, control_coreTurn]
  have hnext : s.nextStmt = u.nextStmt := by rw [← control_nextStmt, h, control_nextStmt]
  rcases coreNext_or_hostNext_or_idle s with ⟨p, hs⟩ | ⟨st, hs⟩ | ⟨hcore, hhost⟩
  · obtain ⟨q, hu, hop, htsel, harg⟩ := coreNext_of_control h hs
    rw [step_of_coreNext hs, step_of_coreNext hu]
    exact coreStep_control h hs hu hop htsel harg
  · have hu : u.hostNext st := ⟨hturn ▸ hs.1, hnext ▸ hs.2⟩
    rw [step_of_hostNext hs, step_of_hostNext hu]
    exact hostStep_control h hreads hs.1 hu.1 st
  · have hcore' : u.completing = none := by
      refine Option.eq_none_iff_forall_ne_some.2 fun q hq => ?_
      obtain ⟨p, hp, -⟩ := coreNext_of_control h.symm (completing_eq_some_iff.1 hq)
      rw [completing_eq_some_iff.2 hp] at hcore
      cases hcore
    rw [step_of_idle hcore hhost, step_of_idle hcore' (hnext ▸ hhost)]
    exact mapNext_control_next h

end Sys2Proof.Machine
end
